-- ==== Sys2Proof/Word.lean ====
section
/-! DEFINITION. The core's two word types: the 8-bit byte of registers, memory cells, operands and the output
channel (spec/00_scope.md R11), and the 9-bit program counter (spec/10_state.md R26). -/

namespace Sys2Proof

/-- An 8-bit unsigned value: a register, a memory cell, an operand byte, FL (R11, R20, R30, R50). -/
abbrev Byte := BitVec 8

/-- The program counter: "a value in 0–256, nine bits wide" (R26). -/
abbrev PcWord := BitVec 9

end Sys2Proof
end

