-- ==== Sys2Proof/Config.lean ====
section
/-! DEFINITION. The open parameters of spec/00_scope.md R12, as types. Their default values stand in
Machine/Params.lean, and what they do stands in the operations that read them. A parameter of the spec is an argument
of the model: the record `Config` is carried in State (log 1), and no step changes it. -/

namespace Sys2Proof

/-- The names of the thirteen instructions (R3): the domain of OPCODE_MAP. -/
inductive Mnemonic where
  | ldi | prn | mul | add | cmp | push | pop | call | ret | jmp | jeq | jne | hlt
deriving DecidableEq, Repr

/-- OPCODE_MAP (R12, R74): one opcode byte for each mnemonic. `OpcodeMap.legal` (Decode.lean) says which maps R74 admits. -/
structure OpcodeMap where
  ldi : Byte
  prn : Byte
  mul : Byte
  add : Byte
  cmp : Byte
  push : Byte
  pop : Byte
  call : Byte
  ret : Byte
  jmp : Byte
  jeq : Byte
  jne : Byte
  hlt : Byte
deriving DecidableEq, Repr

/-- GPR_RESET (R12, R23): what R0 to R6 hold after reset. -/
inductive GprReset where
  /-- each of R0 to R6 holds an unconstrained draw -/
  | arbitrary
  /-- each of R0 to R6 holds 0 -/
  | zero
deriving DecidableEq, Repr

/-- ADDR_POLICY (R12): what an address or pc past 255 does (R26, R101, R103, R106, R180). -/
inductive AddrPolicy where
  | fault
  | wrap
deriving DecidableEq, Repr

/-- STACK_POLICY (R12): what SP leaving 0–255 does (R166). -/
inductive StackPolicy where
  | fault
  | wrap
deriving DecidableEq, Repr

/-- R7_OPERAND_ORDER (R12): when PUSH, POP or CALL reads or writes an operand that is R7 (R160, R163, R180). -/
inductive R7OperandOrder where
  | textOrder
  | operandFirst
deriving DecidableEq, Repr

/-- The five open parameters together (R12). -/
structure Config where
  opcodes : OpcodeMap
  gprReset : GprReset
  addrPolicy : AddrPolicy
  stackPolicy : StackPolicy
  r7Order : R7OperandOrder
deriving DecidableEq, Repr

end Sys2Proof
end

