-- ==== Sys2Proof/Machine/Params.lean ====
section
/-! DEFINITION. The values the spec gives the parameters by default (spec/00_scope.md R12, spec/30_encoding.md R74), and
the values reset gives the state (spec/70_reset_and_hazards.md R230). -/

namespace Sys2Proof

/-- The default OPCODE_MAP of R74: "the LS-8 opcode assignments". PRESUMED by the spec itself: the source gives no
opcode value (D1, log 2). -/
def OpcodeMap.standard : OpcodeMap where
  ldi := 0x82#8
  prn := 0x47#8
  mul := 0xA2#8
  add := 0xA0#8
  cmp := 0xA7#8
  push := 0x45#8
  pop := 0x46#8
  call := 0x50#8
  ret := 0x11#8
  jmp := 0x54#8
  jeq := 0x55#8
  jne := 0x56#8
  hlt := 0x01#8

/-- The default of every parameter (R12). -/
def Config.standard : Config where
  opcodes := OpcodeMap.standard
  gprReset := .arbitrary
  addrPolicy := .fault
  stackPolicy := .fault
  r7Order := .textOrder

/-- SP's reset value, 0xF3 (R24). -/
def resetSp : Byte := 0xF3#8

/-- pc's reset value (R27, R231). -/
def resetPc : PcWord := 0#9

/-- FL's reset value, Unset (R33). -/
def resetFl : Byte := 0#8

/-- The register file after reset: R0 to R6 as GPR_RESET says, from the draw made at this reset, and SP (R23, R24). -/
def resetRegs (p : GprReset) (draw : Vector Byte 7) : Vector Byte 8 :=
  match p with
  | .arbitrary => #v[draw[0], draw[1], draw[2], draw[3], draw[4], draw[5], draw[6], resetSp]
  | .zero => #v[0#8, 0#8, 0#8, 0#8, 0#8, 0#8, 0#8, resetSp]

/-- The draw that `State.reset` uses: all zeros. DESIGN CHOICE, unsafe (log 3): the spec gives R0 to R6 no reset value;
a statement about reset quantifies over every draw. -/
def standardDraw : Vector Byte 7 := #v[0#8, 0#8, 0#8, 0#8, 0#8, 0#8, 0#8]

end Sys2Proof
end

