-- ==== Sys2Proof/Machine/State.lean ====
section
/-! DEFINITION. The state of the core (spec/10_state.md, the tuple at its head), the reasons a step can stop, and reset
(spec/70_reset_and_hazards.md R230). -/

namespace Sys2Proof.Machine

/-- A fault of the core with the information it records (spec/60_exceptions.md R200). -/
inductive FaultCause where
  /-- code 1: the opcode byte at pc is none of the 13; records it -/
  | illegalInstruction (op : Byte)
  /-- code 2: a register operand is 8 or more; records the operand byte -/
  | illegalRegister (index : Byte)
  /-- code 3: an opcode fetch, an operand fetch or a CALL return address past 255; records the address -/
  | addressRange (addr : Nat)
  /-- code 4: SP decremented from 0; records SP -/
  | spUnderflow (sp : Byte)
  /-- code 5: SP incremented from 255; records SP -/
  | spOverflow (sp : Byte)
deriving DecidableEq, Repr

/-- The run state (R34), with the fault record of R38 and R201 inside FAULTED. -/
inductive Status where
  | running
  | halted
  | faulted (cause : FaultCause) (fpc : PcWord)
deriving DecidableEq, Repr

/-- Memory as a list of (address, byte) in canonical form; `Memory.wf` and the accesses stand in Machine/Ops.lean. -/
abbrev Memory := List Host.Cell

/-- Everything the spec gives the core, and the model's own `cfg`: the parameters of R12, which no step changes (log 1). -/
structure State where
  cfg : Config
  regs : Vector Byte 8
  pc : PcWord
  fl : Byte
  status : Status
  mem : Memory
  out : List Byte
deriving DecidableEq, Repr

/-- Why the machine has no next step. A fault of the CORE (R200) is not one of these: it is a next state whose status is
`faulted` (log 4). -/
inductive Fault where
  /-- Raised by `step` when status is HALTED: "HALTED and FAULTED have no next step" (R34, R194). Safe: nothing runs. -/
  | noStepHalted
  /-- Raised by `step` when status is FAULTED: "FAULTED has no next step" (R202). Safe: nothing runs. -/
  | noStepFaulted
deriving DecidableEq, Repr

/-- What the model gives no meaning. -/
inductive Refusal where
  /-- Raised by `exec` for an instruction that has no meaning yet; no arm raises it now. Safe. -/
  | notModelled (mnemonic : String)
  /-- Raised by `step` when the OPCODE_MAP breaks a condition R74 requires of it (log 6). Safe. -/
  | illegalOpcodeMap
  /-- Raised by the load port while `rst` is released: "the model gives it no meaning and refuses the run" (R41). Safe. -/
  | loadWhileRunning
  /-- Raised by `boot` for a listing of more than 256 values or with a value above 255: no run starts (R240). Safe. -/
  | listingNotWellFormed
deriving DecidableEq, Repr

/-- The machine right after reset with no program loaded, for any parameters and any draw of R0 to R6 (R230). -/
def State.resetWith (cfg : Config) (draw : Vector Byte 7) : State where
  cfg := cfg
  regs := resetRegs cfg.gprReset draw
  pc := resetPc
  fl := resetFl
  status := .running
  mem := []
  out := []

/-- The machine right after reset under the default parameters (R12), with the all-zero draw (log 3). -/
def State.reset : State := State.resetWith Config.standard standardDraw

end Sys2Proof.Machine
end

