-- ==== Sys2Proof/Machine/Flags.lean ====
section
/-! DEFINITION. The flags register FL (spec/10_state.md R30 to R33) and the one flag computation, CMP's
(spec/41_alu.md R122). -/

namespace Sys2Proof.Machine

/-- FL = E: bit 0 (R30). -/
def flEqual : Byte := 0b00000001#8

/-- FL = G: bit 1 (R30). -/
def flGreater : Byte := 0b00000010#8

/-- FL = L: bit 2 (R30). -/
def flLess : Byte := 0b00000100#8

/-- FL = Unset: no bit, before the first CMP (R31, R33). -/
def flUnset : Byte := 0b00000000#8

/-- The four values FL takes (R31). -/
def flLegal (fl : Byte) : Bool := fl == flUnset || fl == flEqual || fl == flGreater || fl == flLess

/-- The value CMP writes to FL: the comparison is unsigned (R122). -/
def compareFlags (x y : Byte) : Byte :=
  if x = y then flEqual else if x.toNat < y.toNat then flLess else flGreater

/-- FL.E, the only bit the branches read: FL[0] (R189, R191, R193). -/
def equalSet (fl : Byte) : Bool := fl.getLsbD 0

end Sys2Proof.Machine
end

