-- ==== Sys2Proof/Syntax.lean ====
section
/-! DEFINITION. The instructions: one constructor for each row of spec/opcode_table.json, in the table's order. -/

namespace Sys2Proof

/-- An instruction with its operand bytes (R71). A register operand is the WHOLE byte that follows the opcode (R72:
"No operand byte has sub-fields"); a value above 7 is ill-formed and raises ILLEGAL_REGISTER when it runs (R104). -/
inductive Instr where
  /-- load immediate (R140) -/
  | ldi (r imm : Byte)
  /-- print register (R142) -/
  | prn (r : Byte)
  /-- multiply registers (R121) -/
  | mul (a b : Byte)
  /-- add registers (R120) -/
  | add (a b : Byte)
  /-- compare registers (R122) -/
  | cmp (a b : Byte)
  /-- push register (R160) -/
  | push (r : Byte)
  /-- pop into register (R163) -/
  | pop (r : Byte)
  /-- call subroutine through a register (R180) -/
  | call (r : Byte)
  /-- return from subroutine (R183) -/
  | ret
  /-- jump through a register (R186) -/
  | jmp (r : Byte)
  /-- jump if equal (R189) -/
  | jeq (r : Byte)
  /-- jump if not equal (R191) -/
  | jne (r : Byte)
  /-- halt (R194) -/
  | hlt
deriving DecidableEq, Repr

end Sys2Proof
end

