-- ==== Sys2Proof/WellFormed.lean ====
section
/-! DEFINITION. Which instructions are well-formed: every register operand is 0 to 7 (spec/30_encoding.md R72).
LDI's immediate may be any byte. -/

namespace Sys2Proof

/-- "Legal values are 0 to 7" (R72). -/
def registerByteLegal (r : Byte) : Bool := decide (r.toNat ≤ 7)

/-- Every register operand of the instruction is legal (R72, R104). -/
def Instr.wellFormed : Instr → Bool
  | .ldi r _ => registerByteLegal r
  | .prn r => registerByteLegal r
  | .mul a b => registerByteLegal a && registerByteLegal b
  | .add a b => registerByteLegal a && registerByteLegal b
  | .cmp a b => registerByteLegal a && registerByteLegal b
  | .push r => registerByteLegal r
  | .pop r => registerByteLegal r
  | .call r => registerByteLegal r
  | .ret => true
  | .jmp r => registerByteLegal r
  | .jeq r => registerByteLegal r
  | .jne r => registerByteLegal r
  | .hlt => true

end Sys2Proof
end

