-- ==== Sys2Proof/Decode.lean ====
section
/-! DEFINITION. The instruction formats and lengths, the opcode map's conditions, the decoder and, after it, the encoder
(spec/30_encoding.md R70 to R78). -/

namespace Sys2Proof

/-- All thirteen mnemonics, in the table's order (R3). -/
def Mnemonic.all : List Mnemonic :=
  [.ldi, .prn, .mul, .add, .cmp, .push, .pop, .call, .ret, .jmp, .jeq, .jne, .hlt]

/-- The operand count of the mnemonic's format: F0, F1R, F2RI, F2RR of R71. -/
def Mnemonic.operandCount : Mnemonic → Nat
  | .ret | .hlt => 0
  | .prn | .push | .pop | .call | .jmp | .jeq | .jne => 1
  | .ldi | .mul | .add | .cmp => 2

/-- The operand count an opcode byte carries, op[7:6] (R70). -/
def operandCount (op : Byte) : Nat := (op >>> 6).toNat

/-- The opcode byte the map gives a mnemonic. -/
def OpcodeMap.opcode (m : OpcodeMap) : Mnemonic → Byte
  | .ldi => m.ldi
  | .prn => m.prn
  | .mul => m.mul
  | .add => m.add
  | .cmp => m.cmp
  | .push => m.push
  | .pop => m.pop
  | .call => m.call
  | .ret => m.ret
  | .jmp => m.jmp
  | .jeq => m.jeq
  | .jne => m.jne
  | .hlt => m.hlt

/-- What R74 requires of an OPCODE_MAP: "the 13 values are distinct and … each value's bits [7:6] equal the mnemonic's
operand count". It asks no more than these two: a map that gives 0x00 to RET or HLT is legal, and under it a zero cell is
that instruction, where R76 and R234 call the zero cell illegal. DESIGN CHOICE (log 17). -/
def OpcodeMap.legal (m : OpcodeMap) : Bool :=
  Mnemonic.all.all (fun n => operandCount (m.opcode n) == n.operandCount)
    && decide (Mnemonic.all.map m.opcode).Nodup

/-- The decoder's selection: the mnemonic whose whole opcode byte matches, none for an illegal opcode (R76, R102). -/
def OpcodeMap.mnemonic? (m : OpcodeMap) (op : Byte) : Option Mnemonic :=
  Mnemonic.all.find? (fun n => m.opcode n == op)

/-- The instruction a mnemonic names with operand 0 (byte +1) and operand 1 (byte +2) (R71). A format with fewer
operands ignores the rest. -/
def Mnemonic.toInstr (n : Mnemonic) (operand0 operand1 : Byte) : Instr :=
  match n with
  | .ldi => .ldi operand0 operand1
  | .prn => .prn operand0
  | .mul => .mul operand0 operand1
  | .add => .add operand0 operand1
  | .cmp => .cmp operand0 operand1
  | .push => .push operand0
  | .pop => .pop operand0
  | .call => .call operand0
  | .ret => .ret
  | .jmp => .jmp operand0
  | .jeq => .jeq operand0
  | .jne => .jne operand0
  | .hlt => .hlt

/-- Why a list of bytes is no instruction. -/
inductive DecodeError where
  /-- there is no opcode byte -/
  | noOpcode
  /-- the opcode byte is none of the map's 13 (R76) -/
  | illegalInstruction (op : Byte)
  /-- operand `k`, the byte at opcode + k, is the first one missing (R103) -/
  | missingOperand (k : Nat)
deriving DecidableEq, Repr

/-- Decode the instruction at the head of a list of bytes and give the bytes after it. The opcode is checked before any
operand byte (R78, R102); the register operands are not checked here: that is R104, which runs with the instruction. -/
def decode (m : OpcodeMap) (bytes : List Byte) : Except DecodeError (Instr × List Byte) :=
  match bytes with
  | [] => .error .noOpcode
  | op :: rest =>
    match m.mnemonic? op with
    | none => .error (.illegalInstruction op)
    | some n =>
      if rest.length < operandCount op then .error (.missingOperand (rest.length + 1))
      else .ok (n.toInstr (rest.getD 0 0#8) (rest.getD 1 0#8), rest.drop (operandCount op))

/-- The mnemonic of an instruction. -/
def Instr.mnemonic : Instr → Mnemonic
  | .ldi _ _ => .ldi
  | .prn _ => .prn
  | .mul _ _ => .mul
  | .add _ _ => .add
  | .cmp _ _ => .cmp
  | .push _ => .push
  | .pop _ => .pop
  | .call _ => .call
  | .ret => .ret
  | .jmp _ => .jmp
  | .jeq _ => .jeq
  | .jne _ => .jne
  | .hlt => .hlt

/-- The operand bytes, operand 0 first (R71). -/
def Instr.operands : Instr → List Byte
  | .ldi r imm => [r, imm]
  | .prn r => [r]
  | .mul a b => [a, b]
  | .add a b => [a, b]
  | .cmp a b => [a, b]
  | .push r => [r]
  | .pop r => [r]
  | .call r => [r]
  | .ret => []
  | .jmp r => [r]
  | .jeq r => [r]
  | .jne r => [r]
  | .hlt => []

/-- The operand bytes that name a register, in operand order: F1R {0}, F2RI {0}, F2RR {0, 1}, F0 {} (R110). -/
def Instr.registerOperands : Instr → List Byte
  | .ldi r _ => [r]
  | .prn r => [r]
  | .mul a b => [a, b]
  | .add a b => [a, b]
  | .cmp a b => [a, b]
  | .push r => [r]
  | .pop r => [r]
  | .call r => [r]
  | .ret => []
  | .jmp r => [r]
  | .jeq r => [r]
  | .jne r => [r]
  | .hlt => []

/-- The bytes of an instruction: the opcode byte, then its operand bytes (R70, R71). -/
def encode (m : OpcodeMap) (i : Instr) : List Byte := m.opcode i.mnemonic :: i.operands

/-- Byte `k` of an instruction whose bits are `w`, numbered as spec/opcode_table.json numbers them: bits 8k+7 to 8k,
zero from bit `nbits` up. -/
def tableByte (nbits w k : Nat) : Byte := if 8 * k < nbits then BitVec.ofNat 8 (w >>> (8 * k)) else 0#8

/-- The longest instruction, 3 bytes (R70), laid out from a table word. -/
def tableBytes (nbits w : Nat) : List Byte := [tableByte nbits w 0, tableByte nbits w 1, tableByte nbits w 2]

/-- The instruction the decoder reads from a table word, under the default OPCODE_MAP (the map of the table, R74). -/
def decodeTableWord (nbits w : Nat) : Option Instr :=
  match decode OpcodeMap.standard (tableBytes nbits w) with
  | .ok (i, _) => some i
  | .error _ => none

end Sys2Proof
end

