-- ==== Sys2Proof/Machine/Ops.lean ====
section
/-! DEFINITION. The named operations over memory, registers and pc, and raising a fault. -/

namespace Sys2Proof.Machine

/-! Memory -/

/-- What an address that is not listed reads as: memory is "Initialized to all zeros" (R51). -/
def Memory.unlisted : Byte := 0#8

/-- The canonical form: addresses strictly rising and inside 0–255 (R50), and no entry equal to what an unlisted address
reads as. -/
def Memory.wf (m : Memory) : Bool :=
  match m with
  | [] => true
  | (a, v) :: rest => decide (a < 256) && (v != Memory.unlisted) && (rest.all fun c => decide (a < c.1)) && Memory.wf rest

/-- MemRead(a, 1) (R14, R60): no side effect (R56). -/
def Memory.read (m : Memory) (a : Nat) : Byte :=
  match m with
  | [] => Memory.unlisted
  | (k, v) :: rest => if k = a then v else Memory.read rest a

/-- MemWrite(a, 1, v) (R14), keeping the canonical form. -/
def Memory.write (m : Memory) (a : Nat) (v : Byte) : Memory :=
  match m with
  | [] => if v = Memory.unlisted then [] else [(a, v)]
  | (k, w) :: rest =>
    if k < a then (k, w) :: Memory.write rest a v
    else if k = a then (if v = Memory.unlisted then rest else (a, v) :: rest)
    else (if v = Memory.unlisted then (k, w) :: rest else (a, v) :: (k, w) :: rest)

/-- Place bytes at consecutive addresses from `a` upward: the loader's order (R41, R240). -/
def Memory.place (m : Memory) (a : Nat) (bytes : List Byte) : Memory :=
  match bytes with
  | [] => m
  | b :: rest => Memory.place (m.write a b) (a + 1) rest

/-- Read the cell at an 8-bit address (R53). -/
def State.load (s : State) (a : Byte) : Byte := s.mem.read a.toNat

/-- Write the cell at an 8-bit address (R53). -/
def State.store (s : State) (a : Byte) (v : Byte) : State := { s with mem := s.mem.write a.toNat v }

/-! Registers, FL, status and the output channel -/

/-- `x[i]` (R14): no bank, no window, no hard-wired value (R20). -/
def State.reg (s : State) (i : Fin 8) : Byte := s.regs.get i

/-- `x[i] <- v` (R14). -/
def State.setReg (s : State) (i : Fin 8) (v : Byte) : State := { s with regs := s.regs.set i v }

/-- SP is another name for x[7] (R21). -/
def State.sp (s : State) : Byte := s.reg 7

/-- `SP <- v`. -/
def State.setSp (s : State) (v : Byte) : State := s.setReg 7 v

/-- `FL <- v`. -/
def State.setFl (s : State) (v : Byte) : State := { s with fl := v }

/-- `pc <- t`. -/
def State.setPc (s : State) (t : PcWord) : State := { s with pc := t }

/-- `pc <- v` for an 8-bit target: always a valid address (R28). -/
def State.jumpTo (s : State) (v : Byte) : State := s.setPc (v.setWidth 9)

/-- `Out(v)`: append to the output channel (R14, R37). -/
def State.emit (s : State) (v : Byte) : State := { s with out := s.out ++ [v] }

/-- `halt` (R14). -/
def State.halt (s : State) : State := { s with status := .halted }

/-! Faults. There is no trap return beside raising one: nothing but reset leaves FAULTED (R202, R208). -/

/-- A computation that may raise a fault. -/
abbrev Attempt (α : Type) := Except FaultCause α

/-- `raise F(info)`: status becomes FAULTED with the cause and fpc = pc, and nothing else changes (R201). -/
def State.raise (s : State) (c : FaultCause) : State := { s with status := .faulted c s.pc }

/-- End an instruction that started in `s`. A fault discards every write the instruction computed (R15, R108, R203): the
faulted state is made from `s`. -/
def State.commit (s : State) (r : Attempt State) : Host.Outcome State Fault Refusal :=
  match r with
  | .ok t => .next t
  | .error c => .next (s.raise c)

/-- The code of a fault (R200). -/
def FaultCause.code : FaultCause → BitVec 3
  | .illegalInstruction _ => 1#3
  | .illegalRegister _ => 2#3
  | .addressRange _ => 3#3
  | .spUnderflow _ => 4#3
  | .spOverflow _ => 5#3

/-! The stack pointer's arithmetic (R166) -/

/-- SP_dec, used by PUSH and CALL. -/
def spDec (p : StackPolicy) (v : Byte) : Attempt Byte :=
  if v = 0#8 then
    match p with
    | .fault => .error (.spUnderflow v)
    | .wrap => .ok 255#8
  else .ok (v - 1#8)

/-- SP_inc, used by POP and RET. -/
def spInc (p : StackPolicy) (v : Byte) : Attempt Byte :=
  if v = 255#8 then
    match p with
    | .fault => .error (.spOverflow v)
    | .wrap => .ok 0#8
  else .ok (v + 1#8)

/-! The program counter's arithmetic -/

/-- next_seq of an instruction, from its own operand count (R106): reduced modulo 256 under Wrap. -/
def nextSeq (p : AddrPolicy) (pc : PcWord) (n : Mnemonic) : PcWord :=
  match p with
  | .fault => BitVec.ofNat 9 (pc.toNat + 1 + n.operandCount)
  | .wrap => BitVec.ofNat 9 ((pc.toNat + 1 + n.operandCount) % 256)

/-- `pc <- next_seq(pc, op)`. -/
def State.advance (s : State) (n : Mnemonic) : State := s.setPc (nextSeq s.cfg.addrPolicy s.pc n)

/-- The address of the byte `k` places after pc: past 255, ADDRESS_RANGE under Fault and modulo 256 under Wrap (R103). -/
def offsetAddress (p : AddrPolicy) (pc : PcWord) (k : Nat) : Attempt Nat :=
  if pc.toNat + k > 255 then
    match p with
    | .fault => .error (.addressRange (pc.toNat + k))
    | .wrap => .ok ((pc.toNat + k) % 256)
  else .ok (pc.toNat + k)

/-- CALL's return address, pc + 2, as the byte it pushes: the same range check (R180, D17). -/
def returnAddress (p : AddrPolicy) (pc : PcWord) : Attempt Byte := do
  let a ← offsetAddress p pc 2
  pure (BitVec.ofNat 8 a)

end Sys2Proof.Machine
end

