-- ==== Sys2Proof/Machine/Operands.lean ====
section
/-! DEFINITION. The operand forms: a register-index byte, checked 0 to 7 (spec/30_encoding.md R72, spec/40_sequencer.md
R104), and the register operand of an instruction that also updates SP (spec/00_scope.md R12, D11). LDI's immediate is
any byte and needs no operation (R72). -/

namespace Sys2Proof.Machine

/-- The register check of one operand: the register it names, or ILLEGAL_REGISTER with the byte (R104). -/
def regOperand (r : Byte) : Attempt (Fin 8) :=
  if h : r.toNat < 8 then .ok ⟨r.toNat, h⟩ else .error (.illegalRegister r)

/-- The register operand of PUSH or CALL, which go from `s` to `t` by the SP write: read after it under TextOrder and
before it under OperandFirst (R160, R180). -/
def operandAroundSp (s t : State) (i : Fin 8) : Byte :=
  match s.cfg.r7Order with
  | .textOrder => t.reg i
  | .operandFirst => s.reg i

end Sys2Proof.Machine
end

