-- ==== Sys2Proof/Machine/Alu.lean ====
section
/-! DEFINITION. The ALU instructions ADD, MUL and CMP (spec/41_alu.md). -/

namespace Sys2Proof.Machine

/-- ADD's result: modulo 256, the carry discarded (R120, R123). -/
def aluAdd (x y : Byte) : Byte := BitVec.ofNat 8 (x.toNat + y.toNat)

/-- MUL's result: the low 8 bits of the product (R121, R123). -/
def aluMul (x y : Byte) : Byte := BitVec.ofNat 8 (x.toNat * y.toNat)

/-- ADD (R120). -/
def execAdd (a b : Byte) (s : State) : Host.Outcome State Fault Refusal :=
  s.commit do
    let i ← regOperand a
    let j ← regOperand b
    pure ((s.setReg i (aluAdd (s.reg i) (s.reg j))).advance .add)

/-- MUL (R121). -/
def execMul (a b : Byte) (s : State) : Host.Outcome State Fault Refusal :=
  s.commit do
    let i ← regOperand a
    let j ← regOperand b
    pure ((s.setReg i (aluMul (s.reg i) (s.reg j))).advance .mul)

/-- CMP (R122): writes FL whole and no register. -/
def execCmp (a b : Byte) (s : State) : Host.Outcome State Fault Refusal :=
  s.commit do
    let i ← regOperand a
    let j ← regOperand b
    pure ((s.setFl (compareFlags (s.reg i) (s.reg j))).advance .cmp)

end Sys2Proof.Machine
end

