-- ==== Sys2Proof/Machine/Control.lean ====
section
/-! DEFINITION. Control transfer CALL, RET, JMP, JEQ, JNE, and HLT (spec/44_control.md). -/

namespace Sys2Proof.Machine

/-- CALL (R180): SP's check comes before the return address's (R206). Under TextOrder the target register is read after
the SP write, under OperandFirst before it. -/
def execCall (r : Byte) (s : State) : Host.Outcome State Fault Refusal :=
  s.commit do
    let i ← regOperand r
    let sp ← spDec s.cfg.stackPolicy s.sp
    let back ← returnAddress s.cfg.addrPolicy s.pc
    let t := s.setSp sp
    pure ((t.store sp back).jumpTo (operandAroundSp s t i))

/-- RET (R183): jumps to whatever byte is at SP. -/
def execRet (s : State) : Host.Outcome State Fault Refusal :=
  s.commit do
    let t := s.load s.sp
    let sp ← spInc s.cfg.stackPolicy s.sp
    pure ((s.setSp sp).jumpTo t)

/-- JMP (R186). -/
def execJmp (r : Byte) (s : State) : Host.Outcome State Fault Refusal :=
  s.commit do
    let i ← regOperand r
    pure (s.jumpTo (s.reg i))

/-- JEQ (R189): the register is checked also when the jump is not taken (R104). -/
def execJeq (r : Byte) (s : State) : Host.Outcome State Fault Refusal :=
  s.commit do
    let i ← regOperand r
    pure (if equalSet s.fl then s.jumpTo (s.reg i) else s.advance .jeq)

/-- JNE (R191). -/
def execJne (r : Byte) (s : State) : Host.Outcome State Fault Refusal :=
  s.commit do
    let i ← regOperand r
    pure (if equalSet s.fl then s.advance .jne else s.jumpTo (s.reg i))

/-- HLT (R194): pc still holds the HLT's address (D10). -/
def execHlt (s : State) : Host.Outcome State Fault Refusal := s.commit (pure s.halt)

end Sys2Proof.Machine
end

