-- ==== Sys2Proof/Machine/LoadPrint.lean ====
section
/-! DEFINITION. Load-immediate and print (spec/42_load_print.md). -/

namespace Sys2Proof.Machine

/-- LDI (R140): the immediate is not extended, scaled or shifted (R72). -/
def execLdi (r imm : Byte) (s : State) : Host.Outcome State Fault Refusal :=
  s.commit do
    let i ← regOperand r
    pure ((s.setReg i imm).advance .ldi)

/-- PRN (R142): the core emits the 8-bit value; the host prints its decimal text (R143, D20). -/
def execPrn (r : Byte) (s : State) : Host.Outcome State Fault Refusal :=
  s.commit do
    let i ← regOperand r
    pure ((s.emit (s.reg i)).advance .prn)

end Sys2Proof.Machine
end

