-- ==== Sys2Proof/Machine/Stack.lean ====
section
/-! DEFINITION. The stack instructions PUSH and POP (spec/43_stack.md). -/

namespace Sys2Proof.Machine

/-- PUSH (R160). Under TextOrder the register is read after the SP write, under OperandFirst before it. -/
def execPush (r : Byte) (s : State) : Host.Outcome State Fault Refusal :=
  s.commit do
    let i ← regOperand r
    let sp ← spDec s.cfg.stackPolicy s.sp
    let t := s.setSp sp
    pure ((t.store sp (operandAroundSp s t i)).advance .push)

/-- POP (R163). Under TextOrder SP is read after the write to the register, under OperandFirst the register is written
last. The cell read keeps its value. -/
def execPop (r : Byte) (s : State) : Host.Outcome State Fault Refusal :=
  s.commit do
    let i ← regOperand r
    let v := s.load s.sp
    match s.cfg.r7Order with
    | .textOrder =>
      let t := s.setReg i v
      let sp ← spInc s.cfg.stackPolicy t.sp
      pure ((t.setSp sp).advance .pop)
    | .operandFirst =>
      let sp ← spInc s.cfg.stackPolicy s.sp
      pure (((s.setSp sp).setReg i v).advance .pop)

end Sys2Proof.Machine
end

