-- ==== Sys2Proof/Machine/Fetch.lean ====
section
/-! DEFINITION. Fetching and decoding the instruction at pc (spec/40_sequencer.md R101 to R103). -/

namespace Sys2Proof.Machine

/-- The opcode fetch: past address 255 it raises ADDRESS_RANGE, under either ADDR_POLICY (R101, R110). -/
def State.fetchOpcode (s : State) : Attempt Byte :=
  if s.pc.toNat > 255 then .error (.addressRange s.pc.toNat) else .ok (s.mem.read s.pc.toNat)

/-- The fetch of operand byte `k`, at pc + k (R103). -/
def State.fetchOperand (s : State) (k : Nat) : Attempt Byte := do
  let a ← offsetAddress s.cfg.addrPolicy s.pc k
  pure (s.mem.read a)

/-- The fetch of operand bytes 1 to n, in increasing order (R103). -/
def State.fetchOperands (s : State) (n : Nat) : Attempt (List Byte) :=
  match n with
  | 0 => pure []
  | n + 1 => do
    let before ← s.fetchOperands n
    let b ← s.fetchOperand (n + 1)
    pure (before ++ [b])

/-- Opcode fetch, decode and operand fetch (R101, R102, R103): an illegal opcode reads no operand byte (R78). -/
def State.fetchInstr (s : State) : Attempt Instr := do
  let op ← s.fetchOpcode
  match s.cfg.opcodes.mnemonic? op with
  | none => .error (.illegalInstruction op)
  | some n =>
    let operands ← s.fetchOperands (operandCount op)
    pure (n.toInstr (operands.getD 0 0#8) (operands.getD 1 0#8))

/-- The bytes a fetch at pc can read, at most three (R70): those at pc, pc + 1 and pc + 2, as far as ADDR_POLICY lets the
address go. Empty when pc is past 255. -/
def State.bytesAtPc (s : State) : List Byte :=
  if s.pc.toNat > 255 then []
  else match s.cfg.addrPolicy with
    | .fault => ([0, 1, 2].filter fun k => decide (s.pc.toNat + k ≤ 255)).map fun k => s.mem.read (s.pc.toNat + k)
    | .wrap => [0, 1, 2].map fun k => s.mem.read ((s.pc.toNat + k) % 256)

/-- Store bytes where a fetch at pc reads them: each one at pc + k, left out where ADDR_POLICY lets no fetch reach. -/
def State.placeAtPc (s : State) (bytes : List Byte) (k : Nat) : State :=
  match bytes with
  | [] => s
  | b :: rest =>
    match offsetAddress s.cfg.addrPolicy s.pc k with
    | .ok a => ({ s with mem := s.mem.write a b } : State).placeAtPc rest (k + 1)
    | .error _ => s

end Sys2Proof.Machine
end

