-- ==== Sys2Proof/Machine/Step.lean ====
section
/-! DEFINITION. One step of the core (spec/40_sequencer.md R100, R110), and where the next instruction is stored. -/

namespace Sys2Proof.Machine

/-- One step: enabled only when status is RUNNING (R34, R100). A fault of the fetch is raised (R201); otherwise the
instruction fetched runs. An OPCODE_MAP that R74 does not admit is refused (log 6). -/
def step (s : State) : Host.Outcome State Fault Refusal :=
  match s.status with
  | .halted => .fault .noStepHalted
  | .faulted _ _ => .fault .noStepFaulted
  | .running =>
    if s.cfg.opcodes.legal then
      match s.fetchInstr with
      | .error c => .next (s.raise c)
      | .ok i => exec i s
    else .refused .illegalOpcodeMap

/-- The state with the instruction whose bits are `w` stored where `step` fetches its next instruction: three bytes from
pc upward (log 8). It stands for the load of a program by the host (R41, R240). -/
def State.withFetchWord (s : State) (nbits w : Nat) : State := s.placeAtPc (tableBytes nbits w) 0

end Sys2Proof.Machine
end

