-- ==== Sys2Proof/Machine/Ports.lean ====
section
/-! DEFINITION. The core's transaction-level interface (spec/10_state.md R40, R41) and the loader's contract
(spec/70_reset_and_hazards.md R230, R240, R242). -/

namespace Sys2Proof.Machine

/-- The core with the level of its `rst` input, which the host drives (R40). -/
structure PortState where
  core : State
  rst : Bool
deriving DecidableEq, Repr

/-- What the host can do at the ports (R40, R242). -/
inductive Transaction where
  /-- assert `rst`; `draw` is the draw GPR_RESET makes at this reset (R23, R230) -/
  | assertRst (draw : Vector Byte 7)
  /-- `ld_we` with `ld_addr` and `ld_data` (R41) -/
  | load (addr data : Byte)
  /-- release `rst` (R230) -/
  | releaseRst
  /-- pulse `step` (R40) -/
  | step
deriving DecidableEq, Repr

/-- One transaction. Asserting `rst` gives every state item its reset value at any time (R230, R242). A load is legal
only while `rst` is asserted (R41). `step` performs one instruction when status is RUNNING and "otherwise it does
nothing" (R40); a run begins with the release of `rst` (R243), so a pulse before that does nothing either (log 9). -/
def transact (p : PortState) (x : Transaction) : Host.Outcome PortState Fault Refusal :=
  match x with
  | .assertRst draw => .next { core := State.resetWith p.core.cfg draw, rst := true }
  | .load a v => if p.rst then .next { p with core := p.core.store a v } else .refused .loadWhileRunning
  | .releaseRst => .next { p with rst := false }
  | .step =>
    if p.rst then .next p
    else match p.core.status with
      | .running =>
        match Sys2Proof.Machine.step p.core with
        | .next t => .next { p with core := t }
        | .fault r => .fault r
        | .refused r => .refused r
      | .halted => .next p
      | .faulted _ _ => .next p

/-- Transactions one after another, up to the first that is not a next state. -/
def transactAll (p : PortState) (xs : List Transaction) : Host.Outcome PortState Fault Refusal :=
  match xs with
  | [] => .next p
  | x :: rest =>
    match transact p x with
    | .next q => transactAll q rest
    | .fault r => .fault r
    | .refused r => .refused r

/-- The load-port writes of a program: its bytes at addresses `a`, `a + 1`, … in order (R41). -/
def loadsFrom (a : Nat) (bytes : List Byte) : List Transaction :=
  match bytes with
  | [] => []
  | b :: rest => .load (BitVec.ofNat 8 a) b :: loadsFrom (a + 1) rest

/-- The level outputs (R40, R200). `faultPc` is `none` when status is not FAULTED: R40 gives the port a meaning only
then. -/
structure Outputs where
  halted : Bool
  faulted : Bool
  faultCode : BitVec 3
  faultPc : Option PcWord
deriving DecidableEq, Repr

/-- The level outputs of a state. Code 0 is "no fault (status ≠ FAULTED)" (R200). -/
def State.outputs (s : State) : Outputs :=
  match s.status with
  | .running => { halted := false, faulted := false, faultCode := 0#3, faultPc := none }
  | .halted => { halted := true, faulted := false, faultCode := 0#3, faultPc := none }
  | .faulted c fpc => { halted := false, faulted := true, faultCode := c.code, faultPc := some fpc }

/-- `out_valid` with `out_data`: the value a transaction from `before` to `after` appended to the output channel, if any
(R37, R40). -/
def outPulse (before after : State) : Option Byte := (after.out.drop before.out.length).head?

/-- A listing the loader accepts: "at most 256 bytes, each with a value 0 to 255" (R240). The values are those the host
parsed from the program file's lines (log 10). -/
def listingWellFormed (listing : List Nat) : Bool := decide (listing.length ≤ 256) && listing.all fun v => decide (v ≤ 255)

/-- Reset with a program loaded at address 0 (R51, R230, R240); for a listing that is not well-formed "the host starts
no run". -/
def boot (cfg : Config) (draw : Vector Byte 7) (listing : List Nat) : Host.Outcome State Fault Refusal :=
  if listingWellFormed listing then
    .next { State.resetWith cfg draw with mem := Memory.place [] 0 (listing.map (BitVec.ofNat 8)) }
  else .refused .listingNotWellFormed

end Sys2Proof.Machine
end

