-- ==== Sys2Proof/Safety.lean ====
section
/-! DEFINITION. What claims about the core are stated in: the invariant of its states, the end of a run
(spec/70_reset_and_hazards.md R243), the fault a step raises (spec/60_exceptions.md R206), and the sequences that the
stack laws speak of (spec/43_stack.md R168). -/

namespace Sys2Proof.Machine

/-- The operand byte that names register `i`: these are the legal register operands (R72). -/
def regByte (i : Fin 8) : Byte := BitVec.ofNat 8 i.val

/-- The address `len` bytes after pc, as ADDR_POLICY keeps it in pc: 0–256 under Fault, modulo 256 under Wrap (R106). -/
def State.pcPlus (s : State) (len : Nat) : PcWord :=
  match s.cfg.addrPolicy with
  | .fault => BitVec.ofNat 9 (s.pc.toNat + len)
  | .wrap => BitVec.ofNat 9 ((s.pc.toNat + len) % 256)

/-- A fault record that this configuration can hold: R200's causes with what each one records. -/
def FaultCause.Recordable (cfg : Config) : FaultCause → Prop
  | .illegalInstruction op => ∀ n : Mnemonic, cfg.opcodes.opcode n ≠ op
  | .illegalRegister index => 8 ≤ index.toNat
  | .addressRange addr => cfg.addrPolicy = .fault ∧ (addr = 256 ∨ addr = 257)
  | .spUnderflow sp => cfg.stackPolicy = .fault ∧ sp = 0#8
  | .spOverflow sp => cfg.stackPolicy = .fault ∧ sp = 255#8

/-- The invariant of every state a run reaches. -/
structure State.Inv (s : State) : Prop where
  /-- R74's two conditions on OPCODE_MAP -/
  legalMap : s.cfg.opcodes.legal = true
  /-- memory is in canonical form, inside 0–255 (R50) -/
  memCanonical : s.mem.wf = true
  /-- FL takes exactly four values (R31) -/
  flagsLegal : flLegal s.fl = true
  /-- pc is 0–256 (R26) -/
  pcInRange : s.pc.toNat ≤ 256
  /-- under Wrap pc stays in 0–255 (R26) -/
  pcUnderWrap : s.cfg.addrPolicy = .wrap → s.pc.toNat ≤ 255
  /-- fpc is the pc, which the faulting instruction kept, and the cause is one of R200's (R38, R201) -/
  faultRecord : ∀ c fpc, s.status = .faulted c fpc → fpc = s.pc ∧ c.Recordable s.cfg

/-- The run has ended: status is HALTED or FAULTED (R243). -/
def State.ended (s : State) : Prop := s.status ≠ .running

/-- At most `k` steps, staying in the final state once there is no next one (R243). -/
def runFor (k : Nat) (s : State) : State :=
  match k with
  | 0 => s
  | k + 1 =>
    match step s with
    | .next t => runFor k t
    | .fault _ => s
    | .refused _ => s

/-- Operand byte `k` of the instruction at pc, where the address is reduced modulo 256. -/
def State.operandByte (s : State) (k : Nat) : Byte := s.mem.read ((s.pc.toNat + k) % 256)

/-- Conditions 5 and 6 of R206: the faults an instruction's own rule raises, in order. -/
def State.executeFault (s : State) (i : Instr) : Option FaultCause :=
  match i with
  | .push _ => if s.cfg.stackPolicy = .fault ∧ s.sp = 0#8 then some (.spUnderflow 0#8) else none
  | .call _ =>
    if s.cfg.stackPolicy = .fault ∧ s.sp = 0#8 then some (.spUnderflow 0#8)
    else if s.cfg.addrPolicy = .fault ∧ s.pc.toNat + 2 > 255 then some (.addressRange (s.pc.toNat + 2))
    else none
  | .pop r =>
    if s.cfg.stackPolicy = .fault
        ∧ (if r = 7#8 ∧ s.cfg.r7Order = .textOrder then s.mem.read s.sp.toNat else s.sp) = 255#8 then
      some (.spOverflow 255#8)
    else none
  | .ret => if s.cfg.stackPolicy = .fault ∧ s.sp = 255#8 then some (.spOverflow 255#8) else none
  | .ldi _ _ | .prn _ | .mul _ _ | .add _ _ | .cmp _ _ | .jmp _ | .jeq _ | .jne _ | .hlt => none

/-- The fault a step from `s` raises: "the first whose condition holds, in this order" (R206). None when it raises none. -/
def State.firstFault (s : State) : Option FaultCause :=
  if s.pc.toNat > 255 then some (.addressRange s.pc.toNat)
  else
    let op := s.mem.read s.pc.toNat
    match s.cfg.opcodes.mnemonic? op with
    | none => some (.illegalInstruction op)
    | some n =>
      if s.cfg.addrPolicy = .fault ∧ 1 ≤ operandCount op ∧ s.pc.toNat + 1 > 255 then some (.addressRange (s.pc.toNat + 1))
      else if s.cfg.addrPolicy = .fault ∧ 2 ≤ operandCount op ∧ s.pc.toNat + 2 > 255 then
        some (.addressRange (s.pc.toNat + 2))
      else
        let i := n.toInstr (s.operandByte 1) (s.operandByte 2)
        match i.registerOperands.find? fun r => decide (r.toNat > 7) with
        | some r => some (.illegalRegister r)
        | none => s.executeFault i

/-- The instructions of a list, executed one after another; none where one of them raises a fault. -/
def execAll (is : List Instr) (s : State) : Option State :=
  match is with
  | [] => some s
  | i :: rest =>
    match exec i s with
    | .next t => if t.status = s.status then execAll rest t else none
    | .fault _ => none
    | .refused _ => none

end Sys2Proof.Machine
end

