-- ==== Sys2Proof/Certificates/Slice0/Obligations.lean ====
section
/-! DEFINITION. The statements about the model, for the provers. Each docstring names the rule of spec/ it formalises. -/

open Sys2Proof Sys2Proof.Machine

/-! Encoding and decoding (spec/30_encoding.md) -/

/-- R70 to R76: under every map R74 admits, decoding the encoding of ANY instruction, with any operand bytes and any
bytes after it, gives the instruction and the bytes after it. -/
def Obligations.DecodeOfEncodeIsTheInstruction : Prop :=
  ∀ m : OpcodeMap, m.legal = true → ∀ (i : Instr) (rest : List Byte), decode m (encode m i ++ rest) = .ok (i, rest)

/-- The other direction: what decodes to an instruction starts with its encoding, so each byte string has one meaning. -/
def Obligations.DecodedBytesAreTheEncoding : Prop :=
  ∀ m : OpcodeMap, m.legal = true → ∀ (bytes rest : List Byte) (i : Instr),
    decode m bytes = .ok (i, rest) → bytes = encode m i ++ rest

/-- R70: one opcode byte and op[7:6] operand bytes, at most 2, for every instruction under every legal map. -/
def Obligations.OpcodeTopBitsGiveTheLength : Prop :=
  ∀ m : OpcodeMap, m.legal = true → ∀ i : Instr,
    (encode m i).head? = some (m.opcode i.mnemonic)
      ∧ (encode m i).length = 1 + (m.opcode i.mnemonic).toNat / 64
      ∧ (m.opcode i.mnemonic).toNat / 64 ≤ 2

/-- R76: decoding refuses a byte string by its opcode exactly when the opcode byte is none of the map's 13 values,
whatever bytes follow it (R78). -/
def Obligations.DecoderRefusesExactlyTheUnlistedOpcodes : Prop :=
  ∀ (m : OpcodeMap) (op : Byte) (rest : List Byte),
    decode m (op :: rest) = .error (.illegalInstruction op) ↔ ∀ n : Mnemonic, m.opcode n ≠ op

/-- Words written out from the encodings of R71 and R74 decode to the instructions they stand for, one for each format
and one refused byte. A sanity statement. -/
def Obligations.SampleWordsDecode : Prop :=
  decode OpcodeMap.standard [0b10000010#8, 0b00000000#8, 0b00000101#8] = .ok (.ldi 0#8 5#8, [])
    ∧ decode OpcodeMap.standard [0b10100000#8, 0b00000000#8, 0b00000001#8] = .ok (.add 0#8 1#8, [])
    ∧ decode OpcodeMap.standard [0b01010000#8, 0b00000001#8] = .ok (.call 1#8, [])
    ∧ decode OpcodeMap.standard [0b00010001#8] = .ok (.ret, [])
    ∧ decode OpcodeMap.standard [0b00000000#8] = .error (.illegalInstruction 0#8)

/-! Fetch, decode and the step (spec/40_sequencer.md) -/

/-- R100, R105: when status is RUNNING and the bytes a fetch at pc reads decode to an instruction, the step is that
instruction's effect. Nothing is added around it: the loop does no pc arithmetic. -/
def Obligations.StepRunsTheDecodedInstruction : Prop :=
  ∀ (s : State) (i : Instr) (rest : List Byte),
    s.status = .running → s.cfg.opcodes.legal = true →
    decode s.cfg.opcodes s.bytesAtPc = .ok (i, rest) → step s = exec i s

/-- The same from memory's side: where the cells from pc upward, all inside 0–255, hold an instruction's encoding, the
step runs it, under either ADDR_POLICY. -/
def Obligations.StepRunsTheInstructionStoredAtPc : Prop :=
  ∀ (s : State) (i : Instr),
    s.status = .running → s.cfg.opcodes.legal = true →
    s.pc.toNat + (encode s.cfg.opcodes i).length ≤ 256 →
    (∀ k, k < (encode s.cfg.opcodes i).length → (encode s.cfg.opcodes i)[k]? = some (s.mem.read (s.pc.toNat + k))) →
    step s = exec i s

/-- R101: a fetch past address 255 raises ADDRESS_RANGE with the pc; in a state a run reaches that pc is 256 and
ADDR_POLICY is Fault; otherwise the fetch reads the cell at pc. -/
def Obligations.OpcodeFetchPastTheTopRaisesAddressRange : Prop :=
  (∀ s : State, s.status = .running → s.cfg.opcodes.legal = true → 255 < s.pc.toNat →
      step s = .next { s with status := .faulted (.addressRange s.pc.toNat) s.pc })
    ∧ (∀ s : State, s.Inv → 255 < s.pc.toNat → s.pc.toNat = 256 ∧ s.cfg.addrPolicy = .fault)
    ∧ (∀ s : State, s.pc.toNat ≤ 255 → s.fetchOpcode = .ok (s.mem.read s.pc.toNat))

/-- R102: an opcode byte that is none of the 13 raises ILLEGAL_INSTRUCTION with that byte, whatever stands after it, at
every pc inside memory. -/
def Obligations.UnlistedOpcodeRaisesIllegalInstruction : Prop :=
  ∀ s : State, s.status = .running → s.cfg.opcodes.legal = true → s.pc.toNat ≤ 255 →
    (∀ n : Mnemonic, s.cfg.opcodes.opcode n ≠ s.mem.read s.pc.toNat) →
    step s = .next { s with status := .faulted (.illegalInstruction (s.mem.read s.pc.toNat)) s.pc }

/-- R103: the operand bytes 1 to n are read in increasing order at pc + k. Past 255, ADDRESS_RANGE with the first address
there, 256, under Fault; modulo 256 under Wrap. -/
def Obligations.OperandFetchFollowsAddrPolicy : Prop :=
  ∀ (s : State) (n : Nat), s.pc.toNat ≤ 255 →
    s.fetchOperands n =
      if s.cfg.addrPolicy = .fault ∧ 255 < s.pc.toNat + n then .error (.addressRange 256)
      else .ok ((List.range n).map fun j => s.mem.read ((s.pc.toNat + (j + 1)) % 256))

/-- R104: the first register operand that is 8 or more raises ILLEGAL_REGISTER with that byte and no effect, for every
instruction and whatever FL holds; an instruction whose register operands are legal raises no ILLEGAL_REGISTER. -/
def Obligations.IllegalRegisterRaisedBeforeAnyEffect : Prop :=
  (∀ (i : Instr) (s : State) (r : Byte),
      i.registerOperands.find? (fun x => decide (7 < x.toNat)) = some r →
      exec i s = .next { s with status := .faulted (.illegalRegister r) s.pc })
    ∧ (∀ (i : Instr) (s t : State), i.wellFormed = true → exec i s = .next t →
        ∀ r fpc, t.status = .faulted (.illegalRegister r) fpc → t.status = s.status)

/-- R34, R100, R210: under a legal map a state has a next one exactly when its status is RUNNING: every instruction
executes at every time, and HALTED and FAULTED have no next step. -/
def Obligations.StepHasANextStateExactlyWhenRunning : Prop :=
  ∀ s : State, s.cfg.opcodes.legal = true → ((∃ t, step s = .next t) ↔ s.status = .running)

/-- R206: a step raises the first fault whose condition holds, in the order of the rule, and none when none holds. -/
def Obligations.StepRaisesTheFirstFaultInPriorityOrder : Prop :=
  ∀ s : State, s.status = .running → s.cfg.opcodes.legal = true →
    (∀ c, s.firstFault = some c → step s = .next { s with status := .faulted c s.pc })
      ∧ (s.firstFault = none → ∃ t, step s = .next t ∧ ∀ c fpc, t.status ≠ .faulted c fpc)

/-- R203: a step that faults writes nothing but the status, which records the pc of the instruction (R201). -/
def Obligations.FaultingStepChangesOnlyTheStatus : Prop :=
  ∀ (s t : State) (c : FaultCause) (fpc : PcWord),
    step s = .next t → t.status = .faulted c fpc → t = { s with status := .faulted c s.pc }

/-- R107: the sequential advance is 3 bytes for LDI, MUL, ADD and CMP and 2 for PRN, PUSH, POP, JEQ and JNE; under Fault
it may reach 256, under Wrap it is modulo 256. -/
def Obligations.SequentialAdvanceIsTheInstructionLength : Prop :=
  ∀ pc : PcWord, pc.toNat ≤ 255 →
    (∀ n ∈ [Mnemonic.ldi, .mul, .add, .cmp],
        (nextSeq .fault pc n).toNat = pc.toNat + 3 ∧ (nextSeq .wrap pc n).toNat = (pc.toNat + 3) % 256)
      ∧ (∀ n ∈ [Mnemonic.prn, .push, .pop, .jeq, .jne],
        (nextSeq .fault pc n).toNat = pc.toNat + 2 ∧ (nextSeq .wrap pc n).toNat = (pc.toNat + 2) % 256)

/-! The instructions: the encoding, the whole next state, and each fault of the instruction's own. A register operand is
`regByte i` for one of the eight registers; R104's statement covers the other operand bytes. -/

/-- R140. -/
def Obligations.LdiLoadsTheImmediate : Prop :=
  (∀ r imm : Byte, encode OpcodeMap.standard (.ldi r imm) = [0x82#8, r, imm])
    ∧ ∀ (i : Fin 8) (imm : Byte) (s : State),
      exec (.ldi (regByte i) imm) s = .next { s with regs := s.regs.set i imm, pc := s.pcPlus 3 }

/-- R142. -/
def Obligations.PrnAppendsTheRegister : Prop :=
  (∀ r : Byte, encode OpcodeMap.standard (.prn r) = [0x47#8, r])
    ∧ ∀ (i : Fin 8) (s : State),
      exec (.prn (regByte i)) s = .next { s with out := s.out ++ [s.reg i], pc := s.pcPlus 2 }

/-- R120. -/
def Obligations.AddWritesTheSumModulo256 : Prop :=
  (∀ a b : Byte, encode OpcodeMap.standard (.add a b) = [0xA0#8, a, b])
    ∧ ∀ (i j : Fin 8) (s : State),
      exec (.add (regByte i) (regByte j)) s =
        .next { s with regs := s.regs.set i (s.reg i + s.reg j), pc := s.pcPlus 3 }

/-- R121. -/
def Obligations.MulWritesTheLowByteOfTheProduct : Prop :=
  (∀ a b : Byte, encode OpcodeMap.standard (.mul a b) = [0xA2#8, a, b])
    ∧ ∀ (i j : Fin 8) (s : State),
      exec (.mul (regByte i) (regByte j)) s =
        .next { s with
          regs := s.regs.set i (((s.reg i).setWidth 16 * (s.reg j).setWidth 16).setWidth 8), pc := s.pcPlus 3 }

/-- R122: FL is written whole, with exactly one of E (bit 0), G (bit 1) and L (bit 2), from an unsigned comparison. -/
def Obligations.CmpSetsExactlyOneFlag : Prop :=
  (∀ a b : Byte, encode OpcodeMap.standard (.cmp a b) = [0xA7#8, a, b])
    ∧ ∀ (i j : Fin 8) (s : State),
      exec (.cmp (regByte i) (regByte j)) s =
        .next { s with
          fl := if s.reg i = s.reg j then 0b001#8
            else if (s.reg i).toNat < (s.reg j).toNat then 0b100#8 else 0b010#8
          pc := s.pcPlus 3 }

/-- R160 with R166's SP_dec: SP_UNDERFLOW and nothing written when SP is 0 under Fault; otherwise SP goes down by one
modulo 256 and the cell there gets the register, which for R7 under TextOrder is the new SP. -/
def Obligations.PushStoresTheRegisterBelowSp : Prop :=
  (∀ r : Byte, encode OpcodeMap.standard (.push r) = [0x45#8, r])
    ∧ ∀ (i : Fin 8) (s : State),
      (s.cfg.stackPolicy = .fault ∧ s.sp = 0#8 →
          exec (.push (regByte i)) s = .next { s with status := .faulted (.spUnderflow 0#8) s.pc })
        ∧ (¬(s.cfg.stackPolicy = .fault ∧ s.sp = 0#8) →
          exec (.push (regByte i)) s =
            .next { s with
              regs := s.regs.set 7 (s.sp - 1#8)
              mem := s.mem.write (s.sp - 1#8).toNat
                (if i = 7 ∧ s.cfg.r7Order = .textOrder then s.sp - 1#8 else s.reg i)
              pc := s.pcPlus 2 })

/-- R163 with R166's SP_inc. Under TextOrder the register is written first, so for R7 the popped value is what SP_inc
increments; under OperandFirst it is written last, so POP R7 ends with the popped value. -/
def Obligations.PopLoadsTheTopOfTheStack : Prop :=
  (∀ r : Byte, encode OpcodeMap.standard (.pop r) = [0x46#8, r])
    ∧ (∀ (i : Fin 8) (s : State), s.cfg.r7Order = .textOrder →
      (s.cfg.stackPolicy = .fault ∧ (if i = 7 then s.mem.read s.sp.toNat else s.sp) = 255#8 →
          exec (.pop (regByte i)) s = .next { s with status := .faulted (.spOverflow 255#8) s.pc })
        ∧ (¬(s.cfg.stackPolicy = .fault ∧ (if i = 7 then s.mem.read s.sp.toNat else s.sp) = 255#8) →
          exec (.pop (regByte i)) s =
            .next { s with
              regs := (s.regs.set i (s.mem.read s.sp.toNat)).set 7
                ((if i = 7 then s.mem.read s.sp.toNat else s.sp) + 1#8)
              pc := s.pcPlus 2 }))
    ∧ ∀ (i : Fin 8) (s : State), s.cfg.r7Order = .operandFirst →
      (s.cfg.stackPolicy = .fault ∧ s.sp = 255#8 →
          exec (.pop (regByte i)) s = .next { s with status := .faulted (.spOverflow 255#8) s.pc })
        ∧ (¬(s.cfg.stackPolicy = .fault ∧ s.sp = 255#8) →
          exec (.pop (regByte i)) s =
            .next { s with
              regs := (s.regs.set 7 (s.sp + 1#8)).set i (s.mem.read s.sp.toNat)
              pc := s.pcPlus 2 })

/-- R180: SP_UNDERFLOW first, then ADDRESS_RANGE for a return address past 255 under Fault; otherwise the return address
pc + 2, modulo 256, goes to the cell below SP and pc to the register, which for R7 under TextOrder is the new SP. -/
def Obligations.CallPushesTheReturnAddressAndJumps : Prop :=
  (∀ r : Byte, encode OpcodeMap.standard (.call r) = [0x50#8, r])
    ∧ ∀ (i : Fin 8) (s : State),
      (s.cfg.stackPolicy = .fault ∧ s.sp = 0#8 →
          exec (.call (regByte i)) s = .next { s with status := .faulted (.spUnderflow 0#8) s.pc })
        ∧ (¬(s.cfg.stackPolicy = .fault ∧ s.sp = 0#8) → s.cfg.addrPolicy = .fault ∧ 255 < s.pc.toNat + 2 →
          exec (.call (regByte i)) s = .next { s with status := .faulted (.addressRange (s.pc.toNat + 2)) s.pc })
        ∧ (¬(s.cfg.stackPolicy = .fault ∧ s.sp = 0#8) → ¬(s.cfg.addrPolicy = .fault ∧ 255 < s.pc.toNat + 2) →
          exec (.call (regByte i)) s =
            .next { s with
              regs := s.regs.set 7 (s.sp - 1#8)
              mem := s.mem.write (s.sp - 1#8).toNat (BitVec.ofNat 8 ((s.pc.toNat + 2) % 256))
              pc := (if i = 7 ∧ s.cfg.r7Order = .textOrder then s.sp - 1#8 else s.reg i).setWidth 9 })

/-- R183. -/
def Obligations.RetJumpsToTheTopOfTheStack : Prop :=
  encode OpcodeMap.standard .ret = [0x11#8]
    ∧ ∀ s : State,
      (s.cfg.stackPolicy = .fault ∧ s.sp = 255#8 →
          exec .ret s = .next { s with status := .faulted (.spOverflow 255#8) s.pc })
        ∧ (¬(s.cfg.stackPolicy = .fault ∧ s.sp = 255#8) →
          exec .ret s =
            .next { s with regs := s.regs.set 7 (s.sp + 1#8), pc := (s.mem.read s.sp.toNat).setWidth 9 })

/-- R186. -/
def Obligations.JmpJumpsToTheRegister : Prop :=
  (∀ r : Byte, encode OpcodeMap.standard (.jmp r) = [0x54#8, r])
    ∧ ∀ (i : Fin 8) (s : State), exec (.jmp (regByte i)) s = .next { s with pc := (s.reg i).setWidth 9 }

/-- R189: taken exactly when FL[0] is 1; otherwise pc + 2 (R192). -/
def Obligations.JeqJumpsWhenEqual : Prop :=
  (∀ r : Byte, encode OpcodeMap.standard (.jeq r) = [0x55#8, r])
    ∧ ∀ (i : Fin 8) (s : State),
      exec (.jeq (regByte i)) s =
        .next { s with pc := if s.fl.getLsbD 0 = true then (s.reg i).setWidth 9 else s.pcPlus 2 }

/-- R191: taken exactly when FL[0] is 0; otherwise pc + 2 (R192). -/
def Obligations.JneJumpsWhenNotEqual : Prop :=
  (∀ r : Byte, encode OpcodeMap.standard (.jne r) = [0x56#8, r])
    ∧ ∀ (i : Fin 8) (s : State),
      exec (.jne (regByte i)) s =
        .next { s with pc := if s.fl.getLsbD 0 = false then (s.reg i).setWidth 9 else s.pcPlus 2 }

/-- R194: only the status changes; pc still holds the HLT's address, and HALTED has no next step. -/
def Obligations.HltHaltsAndKeepsEverythingElse : Prop :=
  encode OpcodeMap.standard .hlt = [0x01#8]
    ∧ (∀ s : State, exec .hlt s = .next { s with status := .halted })
    ∧ (∀ s t : State, exec .hlt s = .next t → ∀ u, step t ≠ .next u)

/-! Frames (spec/40_sequencer.md R111): what an instruction leaves unchanged when exec gives a next state. pc may change. -/

/-- LDI, ADD and MUL with legal register operands: every register but the destination, every flag, every byte of
memory, out, status and the parameters. -/
def Obligations.RegisterWritersFrame : Prop :=
  ∀ (i : Instr) (d : Fin 8) (s t : State),
    (∃ x : Byte, i = .ldi (regByte d) x ∨ i = .add (regByte d) x ∨ i = .mul (regByte d) x) →
    i.wellFormed = true → exec i s = .next t →
    (∀ q, q ≠ d → t.reg q = s.reg q) ∧ t.fl = s.fl ∧ t.status = s.status ∧ t.out = s.out ∧ t.cfg = s.cfg
      ∧ ∀ a : Nat, t.mem.read a = s.mem.read a

/-- PRN, CMP, JMP, JEQ, JNE and HLT with legal register operands: every register, every byte of memory and the
parameters; FL but for CMP, out but for PRN, status but for HLT. -/
def Obligations.NoRegisterNoMemoryFrame : Prop :=
  ∀ (i : Instr) (s t : State),
    (i = .hlt ∨ ∃ r x : Byte, i = .prn r ∨ i = .cmp r x ∨ i = .jmp r ∨ i = .jeq r ∨ i = .jne r) →
    i.wellFormed = true → exec i s = .next t →
    (∀ q, t.reg q = s.reg q) ∧ (∀ a : Nat, t.mem.read a = s.mem.read a) ∧ t.cfg = s.cfg
      ∧ ((∀ r x, i ≠ .cmp r x) → t.fl = s.fl)
      ∧ ((∀ r, i ≠ .prn r) → t.out = s.out)
      ∧ (i ≠ .hlt → t.status = s.status)

/-- PUSH and CALL: either the instruction raised a fault, which changes only the status, or every register but SP, every
flag, out, status, the parameters, and every byte of memory outside the one cell at SP_dec of SP are unchanged. -/
def Obligations.StackWritersFrame : Prop :=
  ∀ (i : Instr) (s t : State),
    (∃ r : Byte, i = .push r ∨ i = .call r) → exec i s = .next t →
    (∃ c, t = s.raise c)
      ∨ ((∀ q, q ≠ 7 → t.reg q = s.reg q) ∧ t.fl = s.fl ∧ t.status = s.status ∧ t.out = s.out ∧ t.cfg = s.cfg
        ∧ ∀ a : Byte, spDec s.cfg.stackPolicy s.sp = .ok a →
            ∀ b : Nat, b ≠ a.toNat → t.mem.read b = s.mem.read b)

/-- POP and RET: either the instruction raised a fault, which changes only the status, or every register but SP and
POP's destination, every flag, every byte of memory, out, status and the parameters are unchanged. -/
def Obligations.StackReadersFrame : Prop :=
  ∀ (i : Instr) (s t : State) (d : Fin 8),
    (i = .pop (regByte d) ∨ i = .ret ∧ d = 7) → exec i s = .next t →
    (∃ c, t = s.raise c)
      ∨ ((∀ q, q ≠ 7 → q ≠ d → t.reg q = s.reg q) ∧ t.fl = s.fl ∧ t.status = s.status ∧ t.out = s.out
        ∧ t.cfg = s.cfg ∧ ∀ a : Nat, t.mem.read a = s.mem.read a)

/-! Rules about the whole machine, over every instruction -/

/-- R32: only CMP writes FL. -/
def Obligations.OnlyCmpWritesTheFlags : Prop :=
  ∀ s t : State, step s = .next t → t.fl ≠ s.fl → ∃ a b, s.fetchInstr = .ok (.cmp a b)

/-- R32, R193: FL.L and FL.G are read by no instruction: a step from a state with another FL of the same E gives the
same next state but for FL. -/
def Obligations.LessAndGreaterAreUnobservable : Prop :=
  ∀ (s t : State) (f : Byte), f.getLsbD 0 = s.fl.getLsbD 0 → step s = .next t →
    ∃ u : State, step { s with fl := f } = .next u ∧ { u with fl := t.fl } = t

/-- R31: FL takes only the four values from one step to the next; a CMP with legal operands leaves exactly one of E, G
and L; and no step brings Unset back. -/
def Obligations.FlagsTakeFourValuesAndUnsetOnlyBeforeCompare : Prop :=
  (∀ s t : State, step s = .next t → s.fl ∈ [0b001#8, 0b010#8, 0b100#8, 0b000#8] →
      t.fl ∈ [0b001#8, 0b010#8, 0b100#8, 0b000#8])
    ∧ (∀ (a b : Byte) (s t : State), (Instr.cmp a b).wellFormed = true → exec (.cmp a b) s = .next t →
      t.fl = 0b001#8 ∨ t.fl = 0b010#8 ∨ t.fl = 0b100#8)
    ∧ (∀ s t : State, step s = .next t → s.fl ≠ 0b000#8 → t.fl ≠ 0b000#8)

/-- R143: a step appends to out exactly when its instruction is a PRN of a legal register, and then the one value of
that register. -/
def Obligations.OnlyPrnAppendsToOut : Prop :=
  ∀ s t : State, step s = .next t →
    (∀ i : Fin 8, s.fetchInstr = .ok (.prn (regByte i)) → t.out = s.out ++ [s.reg i])
      ∧ ((∀ i : Fin 8, s.fetchInstr ≠ .ok (.prn (regByte i))) → t.out = s.out)

/-- R52: only PUSH and CALL write memory, and they write the one byte at the address SP holds after they decrement it. -/
def Obligations.OnlyPushAndCallWriteMemory : Prop :=
  ∀ (s t : State) (a : Nat), step s = .next t → t.mem.read a ≠ s.mem.read a →
    (∃ r, s.fetchInstr = .ok (.push r) ∨ s.fetchInstr = .ok (.call r))
      ∧ a = t.sp.toNat ∧ spDec s.cfg.stackPolicy s.sp = .ok t.sp

/-- R243, R194: a run's step ends in HALTED only by a HLT, which changes nothing else. -/
def Obligations.OnlyHltHalts : Prop :=
  ∀ s t : State, step s = .next t → t.status = .halted →
    s.fetchInstr = .ok .hlt ∧ t = { s with status := .halted }

/-- The model's own field: no step changes the parameters of R12 (log 1). -/
def Obligations.NoStepChangesTheParameters : Prop :=
  ∀ s t : State, step s = .next t → t.cfg = s.cfg

/-- R26, R106: from a pc inside memory a step reaches pc = 256 only under Fault and by the sequential advance of an
instruction whose last byte is at address 255. -/
def Obligations.PcReaches256OnlyBySequentialAdvance : Prop :=
  ∀ s t : State, s.pc.toNat ≤ 255 → step s = .next t → t.pc.toNat = 256 →
    s.cfg.addrPolicy = .fault
      ∧ ∃ i, s.fetchInstr = .ok i ∧ s.pc.toNat + (encode s.cfg.opcodes i).length = 256
        ∧ t.pc = s.pcPlus (encode s.cfg.opcodes i).length

/-- R74: an OPCODE_MAP with two equal values, or a value whose bits [7:6] are not the operand count of its mnemonic's
format, is not admitted: the step is refused by name. The refusal is the model's way to require it (log 6). -/
def Obligations.IllegalOpcodeMapIsRefused : Prop :=
  ∀ s : State, s.status = .running →
    ((∃ n k : Mnemonic, n ≠ k ∧ s.cfg.opcodes.opcode n = s.cfg.opcodes.opcode k)
      ∨ ∃ i : Instr, (s.cfg.opcodes.opcode i.mnemonic).toNat / 64 ≠ i.operands.length) →
    step s = .refused .illegalOpcodeMap

/-! The invariant, reset, boot and the ports -/

/-- Every step keeps the invariant: memory's canonical form inside 0–255, FL's four values (R31), pc in 0–256 and in
0–255 under Wrap (R26), and a fault record that is the faulting instruction's (R38, R200). -/
def Obligations.StepKeepsTheInvariant : Prop :=
  ∀ s t : State, s.Inv → step s = .next t → t.Inv

/-- The state after reset meets the invariant, for every legal map, every setting of the other parameters and every
draw; so does `State.reset`. -/
def Obligations.ResetMeetsTheInvariant : Prop :=
  (∀ (cfg : Config) (draw : Vector Byte 7), cfg.opcodes.legal = true → (State.resetWith cfg draw).Inv)
    ∧ State.reset.Inv

/-- A booted program's state meets the invariant, whatever the listing holds. -/
def Obligations.BootMeetsTheInvariant : Prop :=
  ∀ (cfg : Config) (draw : Vector Byte 7) (listing : List Nat) (s : State),
    cfg.opcodes.legal = true → boot cfg draw listing = .next s → s.Inv

/-- R230: asserting `rst` from any state gives every state item its reset value: memory 0 (R51), SP 0xF3 (R24), pc 0
(R27), FL 0 (R33, log 7), out empty (R37); R0 to R6 hold the draw under Arbitrary and 0 under Zero (R23). The kept
parameters (log 1) and the level of `rst` beside the core (log 9) are the model's own. -/
def Obligations.AssertingRstGivesTheResetValues : Prop :=
  ∀ (p : PortState) (draw : Vector Byte 7), ∃ q : PortState,
    transact p (.assertRst draw) = .next q ∧ q.rst = true ∧ q.core.cfg = p.core.cfg
      ∧ (∀ a : Nat, q.core.mem.read a = 0#8)
      ∧ q.core.sp = 0xF3#8 ∧ q.core.pc = 0#9 ∧ q.core.fl = 0#8 ∧ q.core.status = .running ∧ q.core.out = []
      ∧ (p.core.cfg.gprReset = .zero → ∀ i : Fin 7, q.core.reg i.castSucc = 0#8)
      ∧ (p.core.cfg.gprReset = .arbitrary → ∀ i : Fin 7, q.core.reg i.castSucc = draw.get i)

/-- R51: after reset and load, cell a holds program byte a for a < n and 0 for n ≤ a ≤ 255; every other item holds its
reset value. A listing of at most 256 values, each at most 255, boots. -/
def Obligations.BootPlacesTheProgramAtZero : Prop :=
  ∀ (cfg : Config) (draw : Vector Byte 7) (listing : List Nat),
    listing.length ≤ 256 → (∀ v ∈ listing, v ≤ 255) →
    ∃ s : State, boot cfg draw listing = .next s
      ∧ (∀ a : Nat, (s.mem.read a).toNat = listing.getD a 0)
      ∧ { s with mem := [] } = State.resetWith cfg draw

/-- R240: for a listing of more than 256 bytes or with a value above 255 the host starts no run. -/
def Obligations.IllFormedListingStartsNoRun : Prop :=
  ∀ (cfg : Config) (draw : Vector Byte 7) (listing : List Nat),
    256 < listing.length ∨ (∃ v ∈ listing, 255 < v) → boot cfg draw listing = .refused .listingNotWellFormed

/-- R41: asserting `rst`, writing the program through the load port to addresses 0, 1, … in order and releasing `rst`
gives the booted state; a write through the load port while `rst` is released is refused. -/
def Obligations.LoadPortUnderRstBootsTheProgram : Prop :=
  (∀ (p : PortState) (draw : Vector Byte 7) (program : List Byte), program.length ≤ 256 →
      ∃ s : State, boot p.core.cfg draw (program.map BitVec.toNat) = .next s
        ∧ transactAll p (.assertRst draw :: loadsFrom 0 program ++ [.releaseRst]) = .next { core := s, rst := false })
    ∧ (∀ (p : PortState) (a v : Byte), p.rst = false → transact p (.load a v) = .refused .loadWhileRunning)

/-- R40: with `rst` released, the step input performs exactly one step when status is RUNNING and otherwise does
nothing; out_valid pulses once, with the register, for a step that runs PRN of a legal register and for no other step;
`halted` and `faulted` show the status, fault_pc the recorded pc, and fault_code the code that R200 gives the cause, 1 to
5, or 0 when status is not FAULTED. The level of `rst` beside the core is the model's own (log 9). -/
def Obligations.StepInputAndOutputs : Prop :=
  (∀ p : PortState, p.rst = false → p.core.status ≠ .running → transact p .step = .next p)
    ∧ (∀ (p : PortState) (t : State), p.rst = false → step p.core = .next t →
        transact p .step = .next { p with core := t }
          ∧ (∀ i : Fin 8, p.core.fetchInstr = .ok (.prn (regByte i)) → outPulse p.core t = some (p.core.reg i))
          ∧ ((∀ i : Fin 8, p.core.fetchInstr ≠ .ok (.prn (regByte i))) → outPulse p.core t = none))
    ∧ (∀ s : State, (s.outputs.halted = true ↔ s.status = .halted)
        ∧ (s.outputs.faulted = true ↔ ∃ c fpc, s.status = .faulted c fpc)
        ∧ (∀ c fpc, s.status = .faulted c fpc → s.outputs.faultPc = some fpc)
        ∧ ((∀ c fpc, s.status ≠ .faulted c fpc) → s.outputs.faultCode = 0#3)
        ∧ (∀ op fpc, s.status = .faulted (.illegalInstruction op) fpc → s.outputs.faultCode = 1#3)
        ∧ (∀ index fpc, s.status = .faulted (.illegalRegister index) fpc → s.outputs.faultCode = 2#3)
        ∧ (∀ addr fpc, s.status = .faulted (.addressRange addr) fpc → s.outputs.faultCode = 3#3)
        ∧ (∀ sp fpc, s.status = .faulted (.spUnderflow sp) fpc → s.outputs.faultCode = 4#3)
        ∧ ∀ sp fpc, s.status = .faulted (.spOverflow sp) fpc → s.outputs.faultCode = 5#3)

/-! The stack -/

/-- R166: SP_dec and SP_inc at the ends of the range and inside it. -/
def Obligations.StackPointerArithmetic : Prop :=
  spDec .fault 0#8 = .error (.spUnderflow 0#8) ∧ spDec .wrap 0#8 = .ok 255#8
    ∧ spInc .fault 255#8 = .error (.spOverflow 255#8) ∧ spInc .wrap 255#8 = .ok 0#8
    ∧ (∀ (p : StackPolicy) (v : Byte), v ≠ 0#8 → ∃ w, spDec p v = .ok w ∧ w.toNat + 1 = v.toNat)
    ∧ (∀ (p : StackPolicy) (v : Byte), v ≠ 255#8 → ∃ w, spInc p v = .ok w ∧ w.toNat = v.toNat + 1)

/-- R168: N pushes of registers other than R7 and then N pops of them in reverse order fault nowhere when SP has room
(N ≤ SP under Fault, N ≤ 256 under Wrap), give every register its value back, SP among them, and leave the pushed values
in memory below SP. R168 does not name the bound under Wrap: it is deduced, since a 257th push overwrites the first
(log 18). -/
def Obligations.PushesThenPopsRestoreTheRegisters : Prop :=
  ∀ (rs : List (Fin 8)) (s : State),
    s.status = .running → s.mem.wf = true → (∀ r ∈ rs, r ≠ 7) →
    rs.length ≤ (match s.cfg.stackPolicy with | .fault => s.sp.toNat | .wrap => 256) →
    ∃ t u : State,
      execAll (rs.map fun r => .push (regByte r)) s = some t
        ∧ execAll (rs.reverse.map fun r => .pop (regByte r)) t = some u
        ∧ (∀ q, u.reg q = s.reg q)
        ∧ ∀ (k : Nat) (h : k < rs.length), u.mem.read (s.sp - BitVec.ofNat 8 (k + 1)).toNat = s.reg rs[k]

/-- R184: a RET executed with SP and the cell at SP as the CALL left them resumes at the CALL's address + 2, with SP as
before the CALL. -/
def Obligations.RetAfterCallResumesAfterTheCall : Prop :=
  ∀ (r : Byte) (s t u : State),
    s.status = .running → s.mem.wf = true → exec (.call r) s = .next t → t.status = .running →
    u.cfg = t.cfg → u.sp = t.sp → u.mem.read t.sp.toNat = t.mem.read t.sp.toNat →
    ∃ v : State, exec .ret u = .next v ∧ v.pc = s.pcPlus 2 ∧ v.sp = s.sp ∧ v.status = u.status

/-- R63: the byte a PUSH stored is what a later opcode fetch at that address reads, with no fence and no delay. -/
def Obligations.FetchSeesTheByteAPushStored : Prop :=
  ∀ (i : Fin 8) (s t u : State),
    s.mem.wf = true → i ≠ 7 → s.status = .running → exec (.push (regByte i)) s = .next t → t.status = .running →
    u.mem = t.mem → u.pc = t.sp.setWidth 9 → u.fetchOpcode = .ok (s.reg i)

/-- R186, R109: a JMP to its own address changes nothing, so the run never ends. -/
def Obligations.JmpToItselfHangs : Prop :=
  ∀ (i : Fin 8) (s : State),
    s.status = .running → s.cfg.opcodes.legal = true → s.fetchInstr = .ok (.jmp (regByte i)) →
    (s.reg i).setWidth 9 = s.pc →
    step s = .next s ∧ ∀ k, runFor k s = s ∧ ¬(runFor k s).ended

/-! The memory after a program -/

/-- R76, R234: a run that reaches a zero cell inside memory raises ILLEGAL_INSTRUCTION with the byte 0, under every legal
map that gives 0x00 neither to RET nor to HLT. R74 lets a map give it to one of the two, and to no other mnemonic; that
the model admits such a map is its choice (log 17). -/
def Obligations.ZeroCellRaisesIllegalInstruction : Prop :=
  ∀ s : State, s.status = .running → s.cfg.opcodes.legal = true →
    s.cfg.opcodes.ret ≠ 0x00#8 → s.cfg.opcodes.hlt ≠ 0x00#8 →
    s.pc.toNat ≤ 255 → s.mem.read s.pc.toNat = 0x00#8 →
    step s = .next { s with status := .faulted (.illegalInstruction 0x00#8) s.pc }
end

