-- ==== Sys2Proof/Laws/Decode.lean ====
section
/-! SUPPORT. The laws of the opcode map and the decoder's selection. -/

namespace Sys2Proof

theorem Mnemonic.mem_all (n : Mnemonic) : n ∈ Mnemonic.all := by cases n <;> decide

/-- R74's two conditions, as a legal map has them. -/
theorem OpcodeMap.legal_iff (m : OpcodeMap) :
    m.legal = true ↔
      (∀ n : Mnemonic, operandCount (m.opcode n) = n.operandCount) ∧ ∀ n k : Mnemonic, m.opcode n = m.opcode k → n = k := by
  have hnodup : (Mnemonic.all.map m.opcode).Nodup ↔ ∀ n k : Mnemonic, m.opcode n = m.opcode k → n = k := by
    rw [List.nodup_map_iff_inj_on (by decide)]
    exact ⟨fun h n k e => h n (Mnemonic.mem_all n) k (Mnemonic.mem_all k) e, fun h n _ k _ e => h n k e⟩
  simp only [OpcodeMap.legal, Bool.and_eq_true, decide_eq_true_eq, List.all_eq_true, beq_iff_eq, hnodup]
  exact and_congr_left fun _ => ⟨fun h n => h n (Mnemonic.mem_all n), fun h n _ => h n⟩

/-- A legal map's opcode carries its mnemonic's operand count (R70, R74). -/
theorem OpcodeMap.operandCount_opcode {m : OpcodeMap} (h : m.legal = true) (n : Mnemonic) :
    operandCount (m.opcode n) = n.operandCount := (m.legal_iff.mp h).1 n

/-- No format has more than two operands (R71). -/
theorem Mnemonic.operandCount_le (n : Mnemonic) : n.operandCount ≤ 2 := by cases n <;> decide

/-- The decoder selects no mnemonic exactly for the bytes outside the map (R76). -/
theorem OpcodeMap.mnemonic?_eq_none (m : OpcodeMap) (op : Byte) :
    m.mnemonic? op = none ↔ ∀ n : Mnemonic, m.opcode n ≠ op := by
  simp only [OpcodeMap.mnemonic?, List.find?_eq_none, beq_iff_eq]
  exact ⟨fun h n => h n (Mnemonic.mem_all n), fun h n _ => h n⟩

/-- The mnemonic selected has the opcode byte. -/
theorem OpcodeMap.opcode_of_mnemonic? {m : OpcodeMap} {op : Byte} {n : Mnemonic} (h : m.mnemonic? op = some n) :
    m.opcode n = op := by
  simpa using List.find?_some h

/-- Under a legal map an opcode byte selects its own mnemonic. -/
theorem OpcodeMap.mnemonic?_opcode {m : OpcodeMap} (h : m.legal = true) (n : Mnemonic) :
    m.mnemonic? (m.opcode n) = some n := by
  cases e : m.mnemonic? (m.opcode n) with
  | none => exact absurd rfl ((m.mnemonic?_eq_none _).mp e n)
  | some k => rw [(m.legal_iff.mp h).2 k n (OpcodeMap.opcode_of_mnemonic? e)]

/-- An instruction is its mnemonic with its operand bytes. -/
theorem Instr.toInstr_operands (i : Instr) :
    i.mnemonic.toInstr (i.operands.getD 0 0#8) (i.operands.getD 1 0#8) = i := by cases i <;> rfl

/-- The operand bytes are as many as the format says. -/
theorem Instr.length_operands (i : Instr) : i.operands.length = i.mnemonic.operandCount := by cases i <;> rfl

@[simp] theorem Mnemonic.toInstr_mnemonic (n : Mnemonic) (a b : Byte) : (n.toInstr a b).mnemonic = n := by
  cases n <;> rfl

end Sys2Proof
end

