-- ==== Sys2Proof/Laws/Memory.lean ====
section
/-! SUPPORT. The laws of memory: a write is read back (spec/20_memory.md R60), reaches no other cell, and keeps the
canonical form; so does placing a program. -/

namespace Sys2Proof.Machine

@[simp] theorem Memory.read_nil (a : Nat) : Memory.read [] a = 0#8 := rfl

/-- The canonical form of a list with a first cell. -/
theorem Memory.wf_cons (k : Nat) (v : Byte) (m : Memory) :
    Memory.wf ((k, v) :: m) = true ↔ k < 256 ∧ v ≠ 0#8 ∧ (∀ c ∈ m, k < c.1) ∧ Memory.wf m = true := by
  simp [Memory.wf, Memory.unlisted, and_assoc]

/-- An address below every listed one reads as unlisted. -/
theorem Memory.read_of_lt (m : Memory) (a : Nat) (h : ∀ c ∈ m, a < c.1) : m.read a = 0#8 := by
  induction m with
  | nil => rfl
  | cons c rest ih =>
    obtain ⟨k, v⟩ := c
    have hk : a < k := h (k, v) (by simp)
    simp only [Memory.read, if_neg (Nat.ne_of_gt hk)]
    exact ih fun c hc => h c (by simp [hc])

/-- A write leaves every other cell alone. -/
theorem Memory.read_write_other (m : Memory) {a b : Nat} (v : Byte) (h : b ≠ a) : (m.write a v).read b = m.read b := by
  induction m with
  | nil => simp only [Memory.write]; split <;> simp [Memory.read, Ne.symm h]
  | cons c rest ih =>
    obtain ⟨k, w⟩ := c
    simp only [Memory.write]
    split
    · simp [Memory.read, ih]
    · split
      · rename_i hk; subst hk
        split <;> simp [Memory.read, Ne.symm h]
      · split <;> simp [Memory.read, Ne.symm h]

/-- A write is read back. -/
theorem Memory.read_write_same (m : Memory) (a : Nat) (v : Byte) (hm : m.wf = true) : (m.write a v).read a = v := by
  induction m with
  | nil => simp only [Memory.write]; split <;> simp_all [Memory.read, Memory.unlisted]
  | cons c rest ih =>
    obtain ⟨k, w⟩ := c
    obtain ⟨-, -, hlt, hrest⟩ := (Memory.wf_cons k w rest).mp hm
    simp only [Memory.write]
    split
    · rename_i hka
      simp [Memory.read, Nat.ne_of_lt hka, ih hrest]
    · split
      · rename_i hk; subst hk
        split
        · rename_i hv; simpa [hv, Memory.unlisted] using Memory.read_of_lt rest k hlt
        · simp [Memory.read]
      · rename_i hlt' hne
        split
        · rename_i hv
          simp only [hv]
          refine Memory.read_of_lt _ a fun c hc => ?_
          rcases List.mem_cons.mp hc with rfl | hc
          · show a < k; omega
          · have := hlt c hc; omega
        · simp [Memory.read]

/-- Every cell of a written memory is a cell of the old one or the one written. -/
theorem Memory.mem_write (m : Memory) (a : Nat) (v : Byte) (c : Host.Cell) (h : c ∈ m.write a v) : c ∈ m ∨ c.1 = a := by
  induction m with
  | nil => simp only [Memory.write] at h; split at h <;> simp_all
  | cons d rest ih =>
    obtain ⟨k, w⟩ := d
    simp only [Memory.write] at h
    split at h
    · rcases List.mem_cons.mp h with rfl | h
      · simp
      · rcases ih h with h | h <;> simp [h]
    · split at h
      · split at h
        · simp [h]
        · rcases List.mem_cons.mp h with rfl | h <;> simp [*]
      · split at h
        · exact .inl h
        · rcases List.mem_cons.mp h with rfl | h
          · simp
          · exact .inl h

/-- A write inside 0–255 keeps the canonical form. -/
theorem Memory.write_wf (m : Memory) (a : Nat) (v : Byte) (ha : a < 256) (hm : m.wf = true) : (m.write a v).wf = true := by
  induction m with
  | nil =>
    simp only [Memory.write]
    split
    · exact hm
    · rename_i hv; exact (Memory.wf_cons _ _ _).mpr ⟨ha, hv, by simp, hm⟩
  | cons c rest ih =>
    obtain ⟨k, w⟩ := c
    obtain ⟨hk, hw, hlt, hrest⟩ := (Memory.wf_cons k w rest).mp hm
    simp only [Memory.write]
    split
    · rename_i hka
      refine (Memory.wf_cons _ _ _).mpr ⟨hk, hw, fun c hc => ?_, ih hrest⟩
      rcases Memory.mem_write rest a v c hc with h | h
      · exact hlt c h
      · omega
    · split
      · rename_i heq; subst heq
        split
        · exact hrest
        · rename_i hv; exact (Memory.wf_cons _ _ _).mpr ⟨hk, hv, hlt, hrest⟩
      · rename_i h1 h2
        split
        · exact hm
        · rename_i hv
          refine (Memory.wf_cons _ _ _).mpr ⟨ha, hv, fun c hc => ?_, hm⟩
          rcases List.mem_cons.mp hc with rfl | hc
          · show a < k; omega
          · have := hlt c hc; omega

/-- Placing bytes inside 0–255 keeps the canonical form. -/
theorem Memory.place_wf (bytes : List Byte) (m : Memory) (a : Nat) (ha : a + bytes.length ≤ 256) (hm : m.wf = true) :
    (Memory.place m a bytes).wf = true := by
  induction bytes generalizing m a with
  | nil => exact hm
  | cons b rest ih =>
    simp only [List.length_cons] at ha
    exact ih _ (a + 1) (by omega) (Memory.write_wf m a b (by omega) hm)

/-- A store keeps the canonical form: its address is a byte. -/
theorem State.store_wf (s : State) (a v : Byte) (h : s.mem.wf = true) : (s.store a v).mem.wf = true :=
  Memory.write_wf _ _ _ a.isLt h

end Sys2Proof.Machine
end

