-- ==== Sys2Proof/Laws/State.lean ====
section
/-! SUPPORT. One lemma per field per update of State, so that no proof unfolds a record update, and what the register
accessors read after each update. -/

namespace Sys2Proof.Machine

variable (s : State)

@[simp] theorem State.setReg_cfg (i : Fin 8) (v : Byte) : (s.setReg i v).cfg = s.cfg := rfl
@[simp] theorem State.setReg_regs (i : Fin 8) (v : Byte) : (s.setReg i v).regs = s.regs.set i v := rfl
@[simp] theorem State.setReg_pc (i : Fin 8) (v : Byte) : (s.setReg i v).pc = s.pc := rfl
@[simp] theorem State.setReg_fl (i : Fin 8) (v : Byte) : (s.setReg i v).fl = s.fl := rfl
@[simp] theorem State.setReg_status (i : Fin 8) (v : Byte) : (s.setReg i v).status = s.status := rfl
@[simp] theorem State.setReg_mem (i : Fin 8) (v : Byte) : (s.setReg i v).mem = s.mem := rfl
@[simp] theorem State.setReg_out (i : Fin 8) (v : Byte) : (s.setReg i v).out = s.out := rfl

@[simp] theorem State.setFl_cfg (v : Byte) : (s.setFl v).cfg = s.cfg := rfl
@[simp] theorem State.setFl_regs (v : Byte) : (s.setFl v).regs = s.regs := rfl
@[simp] theorem State.setFl_pc (v : Byte) : (s.setFl v).pc = s.pc := rfl
@[simp] theorem State.setFl_fl (v : Byte) : (s.setFl v).fl = v := rfl
@[simp] theorem State.setFl_status (v : Byte) : (s.setFl v).status = s.status := rfl
@[simp] theorem State.setFl_mem (v : Byte) : (s.setFl v).mem = s.mem := rfl
@[simp] theorem State.setFl_out (v : Byte) : (s.setFl v).out = s.out := rfl
@[simp] theorem State.setFl_reg (v : Byte) (q : Fin 8) : (s.setFl v).reg q = s.reg q := rfl
@[simp] theorem State.setFl_sp (v : Byte) : (s.setFl v).sp = s.sp := rfl

@[simp] theorem State.setPc_cfg (x : PcWord) : (s.setPc x).cfg = s.cfg := rfl
@[simp] theorem State.setPc_regs (x : PcWord) : (s.setPc x).regs = s.regs := rfl
@[simp] theorem State.setPc_pc (x : PcWord) : (s.setPc x).pc = x := rfl
@[simp] theorem State.setPc_fl (x : PcWord) : (s.setPc x).fl = s.fl := rfl
@[simp] theorem State.setPc_status (x : PcWord) : (s.setPc x).status = s.status := rfl
@[simp] theorem State.setPc_mem (x : PcWord) : (s.setPc x).mem = s.mem := rfl
@[simp] theorem State.setPc_out (x : PcWord) : (s.setPc x).out = s.out := rfl
@[simp] theorem State.setPc_reg (x : PcWord) (q : Fin 8) : (s.setPc x).reg q = s.reg q := rfl
@[simp] theorem State.setPc_sp (x : PcWord) : (s.setPc x).sp = s.sp := rfl

@[simp] theorem State.emit_cfg (v : Byte) : (s.emit v).cfg = s.cfg := rfl
@[simp] theorem State.emit_regs (v : Byte) : (s.emit v).regs = s.regs := rfl
@[simp] theorem State.emit_pc (v : Byte) : (s.emit v).pc = s.pc := rfl
@[simp] theorem State.emit_fl (v : Byte) : (s.emit v).fl = s.fl := rfl
@[simp] theorem State.emit_status (v : Byte) : (s.emit v).status = s.status := rfl
@[simp] theorem State.emit_mem (v : Byte) : (s.emit v).mem = s.mem := rfl
@[simp] theorem State.emit_out (v : Byte) : (s.emit v).out = s.out ++ [v] := rfl
@[simp] theorem State.emit_reg (v : Byte) (q : Fin 8) : (s.emit v).reg q = s.reg q := rfl
@[simp] theorem State.emit_sp (v : Byte) : (s.emit v).sp = s.sp := rfl

@[simp] theorem State.store_cfg (a v : Byte) : (s.store a v).cfg = s.cfg := rfl
@[simp] theorem State.store_regs (a v : Byte) : (s.store a v).regs = s.regs := rfl
@[simp] theorem State.store_pc (a v : Byte) : (s.store a v).pc = s.pc := rfl
@[simp] theorem State.store_fl (a v : Byte) : (s.store a v).fl = s.fl := rfl
@[simp] theorem State.store_status (a v : Byte) : (s.store a v).status = s.status := rfl
@[simp] theorem State.store_mem (a v : Byte) : (s.store a v).mem = s.mem.write a.toNat v := rfl
@[simp] theorem State.store_out (a v : Byte) : (s.store a v).out = s.out := rfl
@[simp] theorem State.store_reg (a v : Byte) (q : Fin 8) : (s.store a v).reg q = s.reg q := rfl
@[simp] theorem State.store_sp (a v : Byte) : (s.store a v).sp = s.sp := rfl

@[simp] theorem State.raise_cfg (c : FaultCause) : (s.raise c).cfg = s.cfg := rfl
@[simp] theorem State.raise_regs (c : FaultCause) : (s.raise c).regs = s.regs := rfl
@[simp] theorem State.raise_pc (c : FaultCause) : (s.raise c).pc = s.pc := rfl
@[simp] theorem State.raise_fl (c : FaultCause) : (s.raise c).fl = s.fl := rfl
@[simp] theorem State.raise_status (c : FaultCause) : (s.raise c).status = .faulted c s.pc := rfl
@[simp] theorem State.raise_mem (c : FaultCause) : (s.raise c).mem = s.mem := rfl
@[simp] theorem State.raise_out (c : FaultCause) : (s.raise c).out = s.out := rfl
@[simp] theorem State.raise_reg (c : FaultCause) (q : Fin 8) : (s.raise c).reg q = s.reg q := rfl
@[simp] theorem State.raise_sp (c : FaultCause) : (s.raise c).sp = s.sp := rfl

@[simp] theorem State.halt_cfg : s.halt.cfg = s.cfg := rfl
@[simp] theorem State.halt_regs : s.halt.regs = s.regs := rfl
@[simp] theorem State.halt_pc : s.halt.pc = s.pc := rfl
@[simp] theorem State.halt_fl : s.halt.fl = s.fl := rfl
@[simp] theorem State.halt_status : s.halt.status = .halted := rfl
@[simp] theorem State.halt_mem : s.halt.mem = s.mem := rfl
@[simp] theorem State.halt_out : s.halt.out = s.out := rfl
@[simp] theorem State.halt_reg (q : Fin 8) : s.halt.reg q = s.reg q := rfl
@[simp] theorem State.halt_sp : s.halt.sp = s.sp := rfl

@[simp] theorem State.setSp_cfg (v : Byte) : (s.setSp v).cfg = s.cfg := rfl
@[simp] theorem State.setSp_regs (v : Byte) : (s.setSp v).regs = s.regs.set 7 v := rfl
@[simp] theorem State.setSp_pc (v : Byte) : (s.setSp v).pc = s.pc := rfl
@[simp] theorem State.setSp_fl (v : Byte) : (s.setSp v).fl = s.fl := rfl
@[simp] theorem State.setSp_status (v : Byte) : (s.setSp v).status = s.status := rfl
@[simp] theorem State.setSp_mem (v : Byte) : (s.setSp v).mem = s.mem := rfl
@[simp] theorem State.setSp_out (v : Byte) : (s.setSp v).out = s.out := rfl

@[simp] theorem State.jumpTo_cfg (v : Byte) : (s.jumpTo v).cfg = s.cfg := rfl
@[simp] theorem State.jumpTo_regs (v : Byte) : (s.jumpTo v).regs = s.regs := rfl
@[simp] theorem State.jumpTo_pc (v : Byte) : (s.jumpTo v).pc = v.setWidth 9 := rfl
@[simp] theorem State.jumpTo_fl (v : Byte) : (s.jumpTo v).fl = s.fl := rfl
@[simp] theorem State.jumpTo_status (v : Byte) : (s.jumpTo v).status = s.status := rfl
@[simp] theorem State.jumpTo_mem (v : Byte) : (s.jumpTo v).mem = s.mem := rfl
@[simp] theorem State.jumpTo_out (v : Byte) : (s.jumpTo v).out = s.out := rfl
@[simp] theorem State.jumpTo_reg (v : Byte) (q : Fin 8) : (s.jumpTo v).reg q = s.reg q := rfl
@[simp] theorem State.jumpTo_sp (v : Byte) : (s.jumpTo v).sp = s.sp := rfl

@[simp] theorem State.advance_cfg (n : Mnemonic) : (s.advance n).cfg = s.cfg := rfl
@[simp] theorem State.advance_regs (n : Mnemonic) : (s.advance n).regs = s.regs := rfl
@[simp] theorem State.advance_pc (n : Mnemonic) : (s.advance n).pc = nextSeq s.cfg.addrPolicy s.pc n := rfl
@[simp] theorem State.advance_fl (n : Mnemonic) : (s.advance n).fl = s.fl := rfl
@[simp] theorem State.advance_status (n : Mnemonic) : (s.advance n).status = s.status := rfl
@[simp] theorem State.advance_mem (n : Mnemonic) : (s.advance n).mem = s.mem := rfl
@[simp] theorem State.advance_out (n : Mnemonic) : (s.advance n).out = s.out := rfl
@[simp] theorem State.advance_reg (n : Mnemonic) (q : Fin 8) : (s.advance n).reg q = s.reg q := rfl
@[simp] theorem State.advance_sp (n : Mnemonic) : (s.advance n).sp = s.sp := rfl

/-- A register write is read back from the register written and from no other. -/
theorem State.setReg_reg (i q : Fin 8) (v : Byte) : (s.setReg i v).reg q = if i = q then v else s.reg q := by
  simp [State.setReg, State.reg, Vector.get_eq_getElem, Vector.getElem_set, Fin.ext_iff]

@[simp] theorem State.setReg_reg_same (i : Fin 8) (v : Byte) : (s.setReg i v).reg i = v := by simp [State.setReg_reg]

@[simp] theorem State.setReg_reg_other {i q : Fin 8} (h : q ≠ i) (v : Byte) : (s.setReg i v).reg q = s.reg q := by
  simp [State.setReg_reg, Ne.symm h]

@[simp] theorem State.setSp_reg_other {q : Fin 8} (h : q ≠ 7) (v : Byte) : (s.setSp v).reg q = s.reg q :=
  State.setReg_reg_other s h v

@[simp] theorem State.setSp_reg_seven (v : Byte) : (s.setSp v).reg 7 = v := State.setReg_reg_same s 7 v

@[simp] theorem State.setSp_sp (v : Byte) : (s.setSp v).sp = v := State.setReg_reg_same s 7 v

/-- SP after a register write: R7 is SP (R21). -/
theorem State.setReg_sp (i : Fin 8) (v : Byte) : (s.setReg i v).sp = if i = 7 then v else s.sp :=
  State.setReg_reg s i 7 v

end Sys2Proof.Machine
end

