-- ==== Sys2Proof/Laws/Ops.lean ====
section
/-! SUPPORT. For each shared operation, what it can answer: the register check, raising and committing, the stack
pointer's and the program counter's arithmetic. -/

namespace Sys2Proof.Machine

theorem regByte_toNat (i : Fin 8) : (regByte i).toNat = i.val := by
  simp only [regByte, BitVec.toNat_ofNat]; omega

/-- The byte that names register `i` passes the check and gives `i`. -/
@[simp] theorem regOperand_regByte (i : Fin 8) : regOperand (regByte i) = .ok i := by
  have h := regByte_toNat i
  simp [regOperand, h]

/-- The register check: a register it names, or the byte it refuses. -/
theorem regOperand_cases (r : Byte) :
    (∃ i, r = regByte i ∧ regOperand r = .ok i) ∨ (7 < r.toNat ∧ regOperand r = .error (.illegalRegister r)) := by
  by_cases h : r.toNat < 8
  · have e : r = regByte ⟨r.toNat, h⟩ := by
      apply BitVec.eq_of_toNat_eq; rw [regByte_toNat]
    exact .inl ⟨⟨r.toNat, h⟩, e, by simp [regOperand, h]⟩
  · exact .inr ⟨by omega, by simp [regOperand, h]⟩

/-- A legal register byte is the byte of a register. -/
theorem registerByteLegal_cases {r : Byte} (h : registerByteLegal r = true) : ∃ i, r = regByte i := by
  rcases regOperand_cases r with ⟨i, h, -⟩ | ⟨h', -⟩
  · exact ⟨i, h⟩
  · simp only [registerByteLegal, decide_eq_true_eq] at h; omega

/-- The two orders differ only for R7, which reads as the new SP under TextOrder (R160, R180). -/
theorem operandAroundSp_setSp (s : State) (v : Byte) (i : Fin 8) :
    operandAroundSp s (s.setSp v) i = if i = 7 ∧ s.cfg.r7Order = .textOrder then v else s.reg i := by
  cases h : s.cfg.r7Order
  · by_cases hi : i = 7
    · subst hi; simp [operandAroundSp, h]
    · simp [operandAroundSp, h, hi]
  · simp [operandAroundSp, h]

@[simp] theorem State.commit_ok (s t : State) : s.commit (.ok t) = .next t := rfl

@[simp] theorem State.commit_error (s : State) (c : FaultCause) : s.commit (.error c) = .next (s.raise c) := rfl

/-- An instruction ends in the state it computed, or in its start state with a fault raised (R203). -/
theorem State.commit_cases {s t : State} {r : Attempt State} (h : s.commit r = .next t) :
    r = .ok t ∨ ∃ c, r = .error c ∧ t = s.raise c := by
  cases r with
  | ok u => left; simpa using h
  | error c => right; exact ⟨c, rfl, by simpa using h.symm⟩

/-- SP_dec: one less modulo 256, or SP_UNDERFLOW at 0 under Fault (R166). -/
theorem spDec_cases (p : StackPolicy) (v : Byte) :
    (spDec p v = .ok (v - 1#8) ∧ ¬(p = .fault ∧ v = 0#8))
      ∨ (spDec p v = .error (.spUnderflow 0#8) ∧ p = .fault ∧ v = 0#8) := by
  by_cases h : v = 0#8
  · subst h; cases p <;> simp [spDec]
  · simp [spDec, h]

/-- SP_inc: one more modulo 256, or SP_OVERFLOW at 255 under Fault (R166). -/
theorem spInc_cases (p : StackPolicy) (v : Byte) :
    (spInc p v = .ok (v + 1#8) ∧ ¬(p = .fault ∧ v = 255#8))
      ∨ (spInc p v = .error (.spOverflow 255#8) ∧ p = .fault ∧ v = 255#8) := by
  by_cases h : v = 255#8
  · subst h; cases p <;> simp [spInc]
  · simp [spInc, h]

/-- An address `k` bytes after pc: ADDRESS_RANGE past 255 under Fault, else modulo 256 (R103). -/
theorem offsetAddress_cases (p : AddrPolicy) (pc : PcWord) (k : Nat) :
    (offsetAddress p pc k = .ok ((pc.toNat + k) % 256) ∧ ¬(p = .fault ∧ 255 < pc.toNat + k))
      ∨ (offsetAddress p pc k = .error (.addressRange (pc.toNat + k)) ∧ p = .fault ∧ 255 < pc.toNat + k) := by
  by_cases h : pc.toNat + k > 255
  · cases p <;> simp [offsetAddress, h]
  · left
    refine ⟨?_, by omega⟩
    simp only [offsetAddress, if_neg h]
    rw [Nat.mod_eq_of_lt (by omega)]

/-- CALL's return address (R180). -/
theorem returnAddress_cases (p : AddrPolicy) (pc : PcWord) :
    (returnAddress p pc = .ok (BitVec.ofNat 8 ((pc.toNat + 2) % 256)) ∧ ¬(p = .fault ∧ 255 < pc.toNat + 2))
      ∨ (returnAddress p pc = .error (.addressRange (pc.toNat + 2)) ∧ p = .fault ∧ 255 < pc.toNat + 2) := by
  rcases offsetAddress_cases p pc 2 with ⟨h, h'⟩ | ⟨h, h'⟩
  · left; exact ⟨by simp [returnAddress, h, bind, Except.bind, pure, Except.pure], h'⟩
  · right; exact ⟨by simp [returnAddress, h, bind, Except.bind], h'⟩

/-- next_seq by the length of the instruction. -/
theorem State.advance_eq (s : State) (n : Mnemonic) : s.advance n = s.setPc (s.pcPlus (1 + n.operandCount)) := by
  have h : s.pc.toNat + 1 + n.operandCount = s.pc.toNat + (1 + n.operandCount) := Nat.add_assoc _ _ _
  unfold State.advance nextSeq State.pcPlus
  cases s.cfg.addrPolicy <;> simp only [h]

/-- A jump target is always an address (R28). -/
theorem setWidth_nine_toNat (v : Byte) : (v.setWidth 9).toNat = v.toNat := by
  simp only [BitVec.toNat_setWidth]; omega

end Sys2Proof.Machine
end

