-- ==== Sys2Proof/Laws/PerInstr.lean ====
section
/-! SUPPORT. Facts about the instructions as syntax, one lemma per constructor. -/

/-- An instruction is well-formed exactly when each operand byte R110 checks is a legal register byte (R72, R104). -/
def Sys2Proof.Laws.RegisterOperandsAreChecked.Statement (i : Sys2Proof.Instr) : Prop :=
  i.wellFormed = i.registerOperands.all Sys2Proof.registerByteLegal

namespace Sys2Proof.Laws.RegisterOperandsAreChecked

theorem ldi (r imm : Byte) : Statement (.ldi r imm) := by simp [Statement, Instr.wellFormed, Instr.registerOperands]
theorem prn (r : Byte) : Statement (.prn r) := by simp [Statement, Instr.wellFormed, Instr.registerOperands]
theorem mul (a b : Byte) : Statement (.mul a b) := by simp [Statement, Instr.wellFormed, Instr.registerOperands]
theorem add (a b : Byte) : Statement (.add a b) := by simp [Statement, Instr.wellFormed, Instr.registerOperands]
theorem cmp (a b : Byte) : Statement (.cmp a b) := by simp [Statement, Instr.wellFormed, Instr.registerOperands]
theorem push (r : Byte) : Statement (.push r) := by simp [Statement, Instr.wellFormed, Instr.registerOperands]
theorem pop (r : Byte) : Statement (.pop r) := by simp [Statement, Instr.wellFormed, Instr.registerOperands]
theorem call (r : Byte) : Statement (.call r) := by simp [Statement, Instr.wellFormed, Instr.registerOperands]
theorem ret : Statement .ret := rfl
theorem jmp (r : Byte) : Statement (.jmp r) := by simp [Statement, Instr.wellFormed, Instr.registerOperands]
theorem jeq (r : Byte) : Statement (.jeq r) := by simp [Statement, Instr.wellFormed, Instr.registerOperands]
theorem jne (r : Byte) : Statement (.jne r) := by simp [Statement, Instr.wellFormed, Instr.registerOperands]
theorem hlt : Statement .hlt := rfl

end Sys2Proof.Laws.RegisterOperandsAreChecked
end

