-- ==== Sys2Proof/Laws/Step.lean ====
section
/-! SUPPORT. Everything a step can do, said once (spec/40_sequencer.md R100, R110). -/

namespace Sys2Proof.Machine

theorem step_halted {s : State} (h : s.status = .halted) : step s = .fault .noStepHalted := by simp [step, h]

theorem step_faulted {s : State} {c : FaultCause} {p : PcWord} (h : s.status = .faulted c p) :
    step s = .fault .noStepFaulted := by simp [step, h]

theorem step_illegalMap {s : State} (h : s.status = .running) (hm : s.cfg.opcodes.legal = false) :
    step s = .refused .illegalOpcodeMap := by simp [step, h, hm]

/-- A fault of the fetch is raised. -/
theorem step_fetch_error {s : State} {c : FaultCause} (h : s.status = .running) (hm : s.cfg.opcodes.legal = true)
    (hf : s.fetchInstr = .error c) : step s = .next (s.raise c) := by simp [step, h, hm, hf]

/-- The instruction fetched runs. -/
theorem step_fetch_ok {s : State} {i : Instr} (h : s.status = .running) (hm : s.cfg.opcodes.legal = true)
    (hf : s.fetchInstr = .ok i) : step s = exec i s := by simp [step, h, hm, hf]

/-- A step to a next state: the status was RUNNING, the map legal, and either the fetch faulted or its instruction ran. -/
theorem step_next_cases {s t : State} (h : step s = .next t) :
    s.status = .running ∧ s.cfg.opcodes.legal = true ∧
      ((∃ c, s.fetchInstr = .error c ∧ t = s.raise c) ∨ ∃ i, s.fetchInstr = .ok i ∧ exec i s = .next t) := by
  cases hs : s.status with
  | halted => simp [step_halted hs] at h
  | faulted c p => simp [step_faulted hs] at h
  | running =>
    cases hm : s.cfg.opcodes.legal with
    | false => simp [step_illegalMap hs hm] at h
    | true =>
      refine ⟨rfl, rfl, ?_⟩
      cases hf : s.fetchInstr with
      | error c =>
        rw [step_fetch_error hs hm hf] at h
        exact .inl ⟨c, rfl, by simpa using h.symm⟩
      | ok i =>
        rw [step_fetch_ok hs hm hf] at h
        exact .inr ⟨i, rfl, h⟩

/-- Every meaning ends in a next state: an instruction's own faults are next states too (log 4). -/
theorem exec_answers_next (i : Instr) (s : State) : ∃ r : Attempt State, exec i s = s.commit r := by
  cases i
  case hlt => exact ⟨.ok s.halt, rfl⟩
  all_goals exact ⟨_, rfl⟩

end Sys2Proof.Machine
end

