-- ==== Sys2Proof/Tests/Slice0.lean ====
section
/-! SUPPORT. The model's own tests. Expected results are those of spec/95_test_vectors.md (the vector's id is in each
comment) or are worked by hand from the rule named. After them, for each statement of the obligations with hypotheses, a
state and operands that meet them all. -/

namespace Sys2Proof.Tests

open Sys2Proof.Machine

/-- The default parameters with another ADDR_POLICY, STACK_POLICY and R7_OPERAND_ORDER. -/
def params (a : AddrPolicy) (p : StackPolicy) (o : R7OperandOrder) : Config :=
  { Config.standard with addrPolicy := a, stackPolicy := p, r7Order := o }

/-- Both policies Wrap. -/
def wrapping : Config := params .wrap .wrap .textOrder

/-- A running state with the given registers and FL, and `bytes` placed at pc. -/
def start (cfg : Config) (pc : Nat) (regs : Vector Byte 8) (fl : Byte) (mem : Memory) (bytes : List Byte) : State :=
  { cfg := cfg, regs := regs, pc := BitVec.ofNat 9 pc, fl := fl, status := .running, mem := Memory.place mem pc bytes,
    out := [] }

/-- Registers R0, R1, R2 and SP; the others 0. -/
def regs (r0 r1 r2 sp : Byte) : Vector Byte 8 := #v[r0, r1, r2, 0#8, 0#8, 0#8, 0#8, sp]

/-- The outcome is a next state with the property. -/
def onNext (o : Host.Outcome State Fault Refusal) (p : State → Bool) : Bool :=
  match o with
  | .next t => p t
  | .fault _ => false
  | .refused _ => false

theorem exists_of_onNext {o : Host.Outcome State Fault Refusal} {p : State → Bool} (h : onNext o p = true) :
    ∃ t, o = .next t ∧ p t = true := by
  cases o with
  | next t => exact ⟨t, rfl, h⟩
  | fault r => simp [onNext] at h
  | refused r => simp [onNext] at h

/-! WellFormed: an ill-formed term for each check -/

theorem test_ldi_ill_formed : (Instr.ldi 8#8 0#8).wellFormed = false := by decide
theorem test_prn_ill_formed : (Instr.prn 8#8).wellFormed = false := by decide
theorem test_mul_ill_formed : (Instr.mul 8#8 7#8).wellFormed = false ∧ (Instr.mul 7#8 8#8).wellFormed = false := by decide
theorem test_add_ill_formed : (Instr.add 9#8 7#8).wellFormed = false ∧ (Instr.add 7#8 9#8).wellFormed = false := by decide
theorem test_cmp_ill_formed : (Instr.cmp 255#8 7#8).wellFormed = false ∧ (Instr.cmp 7#8 255#8).wellFormed = false := by
  decide
theorem test_push_ill_formed : (Instr.push 8#8).wellFormed = false := by decide
theorem test_pop_ill_formed : (Instr.pop 8#8).wellFormed = false := by decide
theorem test_call_ill_formed : (Instr.call 128#8).wellFormed = false := by decide
theorem test_jmp_ill_formed : (Instr.jmp 8#8).wellFormed = false := by decide
theorem test_jeq_ill_formed : (Instr.jeq 200#8).wellFormed = false := by decide
theorem test_jne_ill_formed : (Instr.jne 8#8).wellFormed = false := by decide
/-- R74: the map must be injective, and each value's bits [7:6] must be the operand count. -/
theorem test_map_ill_formed :
    ({ OpcodeMap.standard with mul := 0xA0#8 } : OpcodeMap).legal = false
      ∧ ({ OpcodeMap.standard with hlt := 0x41#8 } : OpcodeMap).legal = false := by decide

/-! Decode: every constructor from a word written out bit by bit from R71 and R74 -/

theorem test_decode_ldi :
    decode OpcodeMap.standard [0b10000010#8, 0b00000111#8, 0b11111111#8] = .ok (.ldi 7#8 255#8, []) := by decide
theorem test_decode_prn : decode OpcodeMap.standard [0b01000111#8, 0b00000101#8, 0x99#8] = .ok (.prn 5#8, [0x99#8]) := by
  decide
theorem test_decode_mul :
    decode OpcodeMap.standard [0b10100010#8, 0b00000001#8, 0b00000010#8] = .ok (.mul 1#8 2#8, []) := by decide
theorem test_decode_add :
    decode OpcodeMap.standard [0b10100000#8, 0b00000011#8, 0b00000100#8] = .ok (.add 3#8 4#8, []) := by decide
theorem test_decode_cmp :
    decode OpcodeMap.standard [0b10100111#8, 0b00000101#8, 0b00000110#8] = .ok (.cmp 5#8 6#8, []) := by decide
theorem test_decode_push : decode OpcodeMap.standard [0b01000101#8, 0b00000111#8] = .ok (.push 7#8, []) := by decide
theorem test_decode_pop : decode OpcodeMap.standard [0b01000110#8, 0b00000001#8] = .ok (.pop 1#8, []) := by decide
theorem test_decode_call : decode OpcodeMap.standard [0b01010000#8, 0b00000001#8] = .ok (.call 1#8, []) := by decide
theorem test_decode_ret : decode OpcodeMap.standard [0b00010001#8] = .ok (.ret, []) := by decide
theorem test_decode_jmp : decode OpcodeMap.standard [0b01010100#8, 0b00000010#8] = .ok (.jmp 2#8, []) := by decide
theorem test_decode_jeq : decode OpcodeMap.standard [0b01010101#8, 0b00000010#8] = .ok (.jeq 2#8, []) := by decide
theorem test_decode_jne : decode OpcodeMap.standard [0b01010110#8, 0b00000011#8] = .ok (.jne 3#8, []) := by decide
theorem test_decode_hlt : decode OpcodeMap.standard [0b00000001#8] = .ok (.hlt, []) := by decide
/-- R77: the LS-8 opcodes that are not in this core are illegal here. -/
theorem test_decode_absent_ls8 :
    ([0x00, 0xA1, 0xA3, 0xA4, 0x65, 0x66, 0xA8, 0xAA, 0xAB, 0x69, 0xAC, 0xAD, 0x83, 0x84, 0x48, 0x52, 0x13, 0x57, 0x58,
      0x59, 0x5A] : List Byte).all (fun op => (OpcodeMap.standard.mnemonic? op).isNone) = true := by decide
/-- R103: the first operand byte that is missing. -/
theorem test_decode_truncated :
    decode OpcodeMap.standard [0x82#8] = .error (.missingOperand 1)
      ∧ decode OpcodeMap.standard [0x82#8, 0#8] = .error (.missingOperand 2)
      ∧ decode OpcodeMap.standard [] = .error .noOpcode := by decide
/-- The table's bit order: the opcode in bits 7..0, operand 0 in bits 15..8, operand 1 in bits 23..16. -/
theorem test_table_word :
    decodeTableWord 24 0x050082 = some (.ldi 0#8 5#8) ∧ decodeTableWord 8 0x82 = some (.ldi 0#8 0#8)
      ∧ decodeTableWord 8 0xC1 = none := by decide

/-! One step each -/

/-- L3: LDI R7 moves SP. -/
theorem test_ldi_sp :
    onNext (step (start Config.standard 0x10 (regs 0#8 0#8 0#8 0xF3#8) 0#8 [] [0x82#8, 7#8, 16#8]))
      (fun t => t.sp == 0x10#8 && t.pc == 0x13#9) = true := by decide
/-- S7: an LDI whose last byte is at 255 goes to pc = 256 under Fault and 0 under Wrap. -/
theorem test_ldi_top :
    onNext (step (start Config.standard 0xFD (regs 0#8 0#8 0#8 0xF3#8) 0#8 [] [0x82#8, 0#8, 7#8]))
        (fun t => t.reg 0 == 7#8 && t.pc == 256#9) = true
      ∧ onNext (step (start wrapping 0xFD (regs 0#8 0#8 0#8 0xF3#8) 0#8 [] [0x82#8, 0#8, 7#8]))
        (fun t => t.pc == 0#9) = true := by decide
/-- L6: PRN R7 outputs SP. -/
theorem test_prn_sp :
    onNext (step (start Config.standard 0x10 (regs 0#8 0#8 0#8 0xF3#8) 0#8 [] [0x47#8, 7#8]))
      (fun t => t.out == [243#8] && t.pc == 0x12#9) = true := by decide
/-- S6: the operand of a PRN at 255 is past memory under Fault and mem[0] under Wrap. -/
theorem test_prn_top :
    onNext (step (start Config.standard 0xFF (regs 9#8 0#8 0#8 0xF3#8) 0#8 [] [0x47#8]))
        (fun t => t.status == .faulted (.addressRange 256) 0xFF#9 && t.out == []) = true
      ∧ onNext (step (start wrapping 0xFF (regs 9#8 0#8 0#8 0xF3#8) 0#8 [] [0x47#8]))
        (fun t => t.out == [9#8] && t.pc == 1#9) = true := by decide
/-- A9: 255·255 = 65025 gives 1. -/
theorem test_mul_low_byte :
    onNext (step (start Config.standard 0x10 (regs 255#8 255#8 0#8 0xF3#8) 4#8 [] [0xA2#8, 0#8, 1#8]))
      (fun t => t.reg 0 == 1#8 && t.reg 1 == 255#8 && t.fl == 4#8 && t.pc == 0x13#9) = true := by decide
/-- A8: the source is the destination. -/
theorem test_mul_square :
    onNext (step (start Config.standard 0x10 (regs 0#8 0#8 16#8 0xF3#8) 0#8 [] [0xA2#8, 2#8, 2#8]))
      (fun t => t.reg 2 == 0#8) = true := by decide
/-- A1: the carry is discarded and FL keeps its value. -/
theorem test_add_wraps :
    onNext (step (start Config.standard 0x10 (regs 200#8 100#8 0#8 0xF3#8) 1#8 [] [0xA0#8, 0#8, 1#8]))
      (fun t => t.reg 0 == 44#8 && t.reg 1 == 100#8 && t.fl == 1#8 && t.pc == 0x13#9) = true := by decide
/-- S9 and S11: the second register is checked, and an operand fetch past 255 comes before the register check. -/
theorem test_add_faults :
    onNext (step (start Config.standard 0x10 (regs 3#8 0#8 0#8 0xF3#8) 0#8 [] [0xA0#8, 0#8, 9#8]))
        (fun t => t.status == .faulted (.illegalRegister 9#8) 0x10#9 && t.reg 0 == 3#8) = true
      ∧ onNext (step (start Config.standard 0xFE (regs 3#8 0#8 0#8 0xF3#8) 0#8 [] [0xA0#8, 9#8]))
        (fun t => t.status == .faulted (.addressRange 256) 0xFE#9) = true := by decide
/-- A17: the comparison is unsigned. -/
theorem test_cmp_unsigned :
    onNext (step (start Config.standard 0x10 (regs 0x80#8 0x7F#8 0#8 0xF3#8) 0#8 [] [0xA7#8, 0#8, 1#8]))
      (fun t => t.fl == 0b010#8 && t.reg 0 == 0x80#8 && t.pc == 0x13#9) = true := by decide
/-- A14 and A15: E replaces L; L. -/
theorem test_cmp_equal_and_less :
    onNext (step (start Config.standard 0x10 (regs 5#8 5#8 0#8 0xF3#8) 4#8 [] [0xA7#8, 0#8, 1#8]))
        (fun t => t.fl == 0b001#8) = true
      ∧ onNext (step (start Config.standard 0x10 (regs 3#8 9#8 0#8 0xF3#8) 0#8 [] [0xA7#8, 0#8, 1#8]))
        (fun t => t.fl == 0b100#8) = true := by decide
/-- K4: PUSH R7 in both orders. -/
theorem test_push_sp :
    onNext (step (start Config.standard 0x10 (regs 0#8 0#8 0#8 0xF3#8) 0#8 [] [0x45#8, 7#8]))
        (fun t => t.sp == 0xF2#8 && t.load 0xF2#8 == 0xF2#8 && t.pc == 0x12#9) = true
      ∧ onNext (step (start (params .fault .fault .operandFirst) 0x10 (regs 0#8 0#8 0#8 0xF3#8) 0#8 [] [0x45#8, 7#8]))
        (fun t => t.sp == 0xF2#8 && t.load 0xF2#8 == 0xF3#8) = true := by decide
/-- K2: PUSH with SP = 0. -/
theorem test_push_underflow :
    onNext (step (start Config.standard 0x10 (regs 42#8 0#8 0#8 0#8) 0#8 [] [0x45#8, 0#8]))
        (fun t => t.status == .faulted (.spUnderflow 0#8) 0x10#9 && t.sp == 0#8 && t.load 255#8 == 0#8) = true
      ∧ onNext (step (start wrapping 0x10 (regs 42#8 0#8 0#8 0#8) 0#8 [] [0x45#8, 0#8]))
        (fun t => t.sp == 255#8 && t.load 255#8 == 42#8) = true := by decide
/-- K5: POP reads and keeps the cell. -/
theorem test_pop :
    onNext (step (start Config.standard 0x10 (regs 0#8 0#8 0#8 0xF2#8) 0#8 [(0xF2, 42#8)] [0x46#8, 1#8]))
      (fun t => t.reg 1 == 42#8 && t.sp == 0xF3#8 && t.load 0xF2#8 == 42#8 && t.pc == 0x12#9) = true := by decide
/-- K8 and K9: POP R7 in both orders, and the popped 255 under Fault. -/
theorem test_pop_sp :
    onNext (step (start Config.standard 0x10 (regs 0#8 0#8 0#8 0xF2#8) 0#8 [(0xF2, 0x10#8)] [0x46#8, 7#8]))
        (fun t => t.sp == 0x11#8) = true
      ∧ onNext (step (start (params .fault .fault .operandFirst) 0x10 (regs 0#8 0#8 0#8 0xF2#8) 0#8 [(0xF2, 0xFF#8)]
          [0x46#8, 7#8])) (fun t => t.sp == 0xFF#8 && t.status == .running) = true
      ∧ onNext (step (start Config.standard 0x10 (regs 0#8 0#8 0#8 0xF2#8) 0#8 [(0xF2, 0xFF#8)] [0x46#8, 7#8]))
        (fun t => t.sp == 0xF2#8 && t.status == .faulted (.spOverflow 255#8) 0x10#9) = true := by decide
/-- C1 and C5: CALL, and CALL R7 in both orders. -/
theorem test_call :
    onNext (step (start Config.standard 3 (regs 0#8 8#8 0#8 0xF3#8) 0#8 [] [0x50#8, 1#8]))
        (fun t => t.sp == 0xF2#8 && t.load 0xF2#8 == 5#8 && t.pc == 8#9) = true
      ∧ onNext (step (start Config.standard 3 (regs 0#8 8#8 0#8 0xF3#8) 0#8 [] [0x50#8, 7#8]))
        (fun t => t.pc == 0xF2#9) = true
      ∧ onNext (step (start (params .fault .fault .operandFirst) 3 (regs 0#8 8#8 0#8 0xF3#8) 0#8 [] [0x50#8, 7#8]))
        (fun t => t.pc == 0xF3#9) = true := by decide
/-- C2 and C4: CALL at 254, and SP_UNDERFLOW before the return address's check. -/
theorem test_call_top :
    onNext (step (start Config.standard 0xFE (regs 0#8 8#8 0#8 0xF3#8) 0#8 [] [0x50#8, 1#8]))
        (fun t => t.status == .faulted (.addressRange 256) 0xFE#9 && t.sp == 0xF3#8) = true
      ∧ onNext (step (start wrapping 0xFE (regs 0#8 8#8 0#8 0xF3#8) 0#8 [(0xF2, 7#8)] [0x50#8, 1#8]))
        (fun t => t.sp == 0xF2#8 && t.load 0xF2#8 == 0#8 && t.pc == 8#9) = true
      ∧ onNext (step (start Config.standard 0xFE (regs 0#8 8#8 0#8 0#8) 0#8 [] [0x50#8, 1#8]))
        (fun t => t.status == .faulted (.spUnderflow 0#8) 0xFE#9) = true := by decide
/-- C6: RET. -/
theorem test_ret :
    onNext (step (start Config.standard 0x10 (regs 0#8 0#8 0#8 0xF2#8) 0#8 [(0xF2, 5#8)] [0x11#8]))
      (fun t => t.pc == 5#9 && t.sp == 0xF3#8 && t.load 0xF2#8 == 5#8) = true := by decide
/-- C7: RET with SP = 255. -/
theorem test_ret_overflow :
    onNext (step (start Config.standard 0x10 (regs 0#8 0#8 0#8 0xFF#8) 0#8 [] [0x11#8]))
        (fun t => t.status == .faulted (.spOverflow 255#8) 0x10#9 && t.pc == 0x10#9) = true
      ∧ onNext (step (start wrapping 0x10 (regs 0#8 0#8 0#8 0xFF#8) 0#8 [(0xFF, 9#8)] [0x11#8]))
        (fun t => t.pc == 9#9 && t.sp == 0#8) = true := by decide
/-- C9 and C11: JMP through R2 and through SP. -/
theorem test_jmp :
    onNext (step (start Config.standard 0x10 (regs 0#8 0#8 17#8 0xF3#8) 0#8 [] [0x54#8, 2#8])) (fun t => t.pc == 17#9) = true
      ∧ onNext (step (start Config.standard 0x10 (regs 0#8 0#8 17#8 0xF3#8) 0#8 [] [0x54#8, 7#8]))
        (fun t => t.pc == 0xF3#9) = true := by decide
/-- C12 to C15: JEQ is taken for E only. -/
theorem test_jeq :
    onNext (step (start Config.standard 12 (regs 0#8 0#8 17#8 0xF3#8) 1#8 [] [0x55#8, 2#8])) (fun t => t.pc == 17#9) = true
      ∧ ([4#8, 2#8, 0#8] : List Byte).all (fun fl =>
        onNext (step (start Config.standard 12 (regs 0#8 0#8 17#8 0xF3#8) fl [] [0x55#8, 2#8])) (fun t => t.pc == 14#9)) = true
      := by decide
/-- S10: the register of an untaken JEQ is checked. -/
theorem test_jeq_register_check :
    onNext (step (start Config.standard 12 (regs 0#8 0#8 17#8 0xF3#8) 4#8 [] [0x55#8, 0xC8#8]))
      (fun t => t.status == .faulted (.illegalRegister 200#8) 12#9) = true := by decide
/-- C16 to C18: JNE is taken for L and Unset, and not for E. -/
theorem test_jne :
    ([4#8, 0#8] : List Byte).all (fun fl =>
        onNext (step (start Config.standard 20 (regs 0#8 0#8 12#8 0xF3#8) fl [] [0x56#8, 2#8])) (fun t => t.pc == 12#9)) = true
      ∧ onNext (step (start Config.standard 20 (regs 0#8 0#8 12#8 0xF3#8) 1#8 [] [0x56#8, 2#8])) (fun t => t.pc == 22#9) = true
      := by decide
/-- C19: an untaken JNE at 254. -/
theorem test_jne_top :
    onNext (step (start Config.standard 0xFE (regs 0#8 0#8 12#8 0xF3#8) 1#8 [] [0x56#8, 2#8])) (fun t => t.pc == 256#9) = true
      ∧ onNext (step (start wrapping 0xFE (regs 0#8 0#8 12#8 0xF3#8) 1#8 [] [0x56#8, 2#8])) (fun t => t.pc == 0#9) = true
      := by decide
/-- C20: HLT keeps its address. -/
theorem test_hlt :
    onNext (step (start Config.standard 5 (regs 0#8 0#8 0#8 0xF3#8) 0#8 [] [0x01#8]))
      (fun t => t.status == .halted && t.pc == 5#9) = true := by decide
/-- S1: the zero memory after reset is an illegal instruction, with code 1. -/
theorem test_reset_step :
    onNext (step State.reset) (fun t => t.status == .faulted (.illegalInstruction 0#8) 0#9 && t.outputs.faultCode == 1#3)
      = true := by decide
/-- withFetchWord: the instruction placed after reset is the one that runs (L1). -/
theorem test_withFetchWord :
    onNext (step (State.reset.withFetchWord 24 0x050082)) (fun t => t.reg 0 == 5#8 && t.pc == 3#9) = true := by decide
/-- A zero written removes the entry, and addresses stay in rising order. -/
theorem test_memory_canonical :
    Memory.write [(2, 7#8), (9, 8#8)] 2 0#8 = [(9, 8#8)] ∧ Memory.write [(2, 7#8), (9, 8#8)] 5 1#8 = [(2, 7#8), (5, 1#8), (9, 8#8)]
      ∧ Memory.wf [(9, 8#8), (2, 7#8)] = false ∧ Memory.wf [(2, 0#8)] = false ∧ Memory.wf [(256, 1#8)] = false := by decide

/-! Witnesses: each theorem shows a state and operands that meet every hypothesis of the obligation it names, at a boundary
where the obligation's clauses meet. -/

/-- A state at 253 whose LDI R0,7 ends at 255 (S7). -/
def atTop : State := start Config.standard 0xFD (regs 0#8 0#8 0#8 0xF3#8) 0#8 [] [0x82#8, 0#8, 7#8]

/-- PUSH R0 at 0x10 with SP = `sp` under the given parameters. -/
def pushAt (cfg : Config) (sp : Byte) : State := start cfg 0x10 (regs 42#8 0#8 0#8 sp) 1#8 [] [0x45#8, 0#8]

/-- CMP R0,R1 of 3 and 9. -/
def comparing : State := start Config.standard 0x10 (regs 3#8 9#8 0#8 0xF3#8) 1#8 [] [0xA7#8, 0#8, 1#8]

/-- PRN R0 at 0x10. -/
def printing : State := start Config.standard 0x10 (regs 9#8 0#8 0#8 0xF3#8) 0#8 [] [0x47#8, 0#8]

/-- HLT at 5. -/
def halting : State := start Config.standard 5 (regs 0#8 0#8 0#8 0xF3#8) 0#8 [] [0x01#8]

/-- JMP R0 to itself at 0x10 (C10). -/
def spinning : State := start Config.standard 0x10 (regs 0x10#8 0#8 0#8 0xF3#8) 0#8 [] [0x54#8, 0#8]

/-- CALL R1 at 253, whose return address 255 is the last that fits. -/
def callingAt (pc : Nat) (sp : Byte) : State := start Config.standard pc (regs 0#8 8#8 0#8 sp) 0#8 [] [0x50#8, 1#8]

theorem witness_DecodeOfEncodeIsTheInstruction : OpcodeMap.standard.legal = true := by decide
theorem witness_DecodedBytesAreTheEncoding :
    OpcodeMap.standard.legal = true
      ∧ decode OpcodeMap.standard [0x82#8, 7#8, 255#8, 1#8] = .ok (.ldi 7#8 255#8, [1#8]) := by decide
theorem witness_OpcodeTopBitsGiveTheLength : OpcodeMap.standard.legal = true := by decide
theorem witness_StepRunsTheDecodedInstruction :
    atTop.status = .running ∧ atTop.cfg.opcodes.legal = true
      ∧ decode atTop.cfg.opcodes atTop.bytesAtPc = .ok (.ldi 0#8 7#8, []) := by decide
theorem witness_StepRunsTheInstructionStoredAtPc :
    atTop.status = .running ∧ atTop.cfg.opcodes.legal = true
      ∧ atTop.pc.toNat + (encode atTop.cfg.opcodes (.ldi 0#8 7#8)).length = 256
      ∧ ∀ k, k < (encode atTop.cfg.opcodes (.ldi 0#8 7#8)).length →
        (encode atTop.cfg.opcodes (.ldi 0#8 7#8))[k]? = some (atTop.mem.read (atTop.pc.toNat + k)) := by decide
/-- Reset's state meets the invariant's fields, whatever its pc. -/
theorem inv_of_reset_at (pc : PcWord) (h : pc.toNat ≤ 256) : (State.reset.setPc pc).Inv where
  legalMap := (by decide : OpcodeMap.standard.legal = true)
  memCanonical := rfl
  flagsLegal := rfl
  pcInRange := h
  pcUnderWrap := fun h => nomatch h
  faultRecord := fun _ _ h => nomatch h
theorem witness_OpcodeFetchPastTheTopRaisesAddressRange :
    ((State.reset.setPc 256#9).status = .running ∧ (State.reset.setPc 256#9).cfg.opcodes.legal = true
        ∧ 255 < (State.reset.setPc 256#9).pc.toNat)
      ∧ (State.reset.setPc 256#9).Inv ∧ (State.reset.setPc 255#9).pc.toNat ≤ 255 :=
  ⟨by decide, inv_of_reset_at 256#9 (by decide), by decide⟩
theorem witness_UnlistedOpcodeRaisesIllegalInstruction :
    State.reset.status = .running ∧ State.reset.cfg.opcodes.legal = true ∧ State.reset.pc.toNat ≤ 255
      ∧ ∀ n : Mnemonic, State.reset.cfg.opcodes.opcode n ≠ State.reset.mem.read State.reset.pc.toNat :=
  ⟨by decide, by decide, by decide, by intro n; cases n <;> decide⟩
/-- Both sides of the boundary: the last operand byte at 255 and at 256. -/
theorem witness_OperandFetchFollowsAddrPolicy :
    atTop.pc.toNat ≤ 255 ∧ ¬(atTop.cfg.addrPolicy = .fault ∧ 255 < atTop.pc.toNat + 2)
      ∧ (atTop.cfg.addrPolicy = .fault ∧ 255 < atTop.pc.toNat + 3) := by decide
theorem witness_IllegalRegisterRaisedBeforeAnyEffect :
    (Instr.add 7#8 8#8).registerOperands.find? (fun x => decide (7 < x.toNat)) = some 8#8
      ∧ (Instr.ldi 7#8 255#8).wellFormed = true
      ∧ ∃ t, exec (.ldi 7#8 255#8) (State.reset.raise (.illegalRegister 8#8)) = .next t
          ∧ t.status = .faulted (.illegalRegister 8#8) 0#9 := by
  refine ⟨by decide, by decide, ?_⟩
  obtain ⟨t, h, ht⟩ := exists_of_onNext (o := exec (.ldi 7#8 255#8) (State.reset.raise (.illegalRegister 8#8)))
    (p := fun t => t.status == .faulted (.illegalRegister 8#8) 0#9) (by decide)
  exact ⟨t, h, by simpa using ht⟩
theorem witness_StepHasANextStateExactlyWhenRunning :
    State.reset.cfg.opcodes.legal = true ∧ State.reset.halt.cfg.opcodes.legal = true := by decide
theorem witness_StepRaisesTheFirstFaultInPriorityOrder :
    (State.reset.status = .running ∧ State.reset.cfg.opcodes.legal = true
        ∧ State.reset.firstFault = some (.illegalInstruction 0#8))
      ∧ atTop.status = .running ∧ atTop.cfg.opcodes.legal = true ∧ atTop.firstFault = none
      ∧ (callingAt 254 0#8).firstFault = some (.spUnderflow 0#8)
      ∧ (callingAt 254 1#8).firstFault = some (.addressRange 256) := by decide
theorem witness_FaultingStepChangesOnlyTheStatus :
    ∃ t, step State.reset = .next t ∧ t.status = .faulted (.illegalInstruction 0#8) 0#9 := by
  obtain ⟨t, h, ht⟩ := exists_of_onNext (o := step State.reset)
    (p := fun t => t.status == .faulted (.illegalInstruction 0#8) 0#9) (by decide)
  exact ⟨t, h, by simpa using ht⟩
theorem witness_SequentialAdvanceIsTheInstructionLength : (255#9).toNat ≤ 255 := by decide
/-- SP = 0 under Fault, and under Wrap. -/
theorem witness_PushStoresTheRegisterBelowSp :
    ((pushAt Config.standard 0#8).cfg.stackPolicy = .fault ∧ (pushAt Config.standard 0#8).sp = 0#8)
      ∧ ¬((pushAt wrapping 0#8).cfg.stackPolicy = .fault ∧ (pushAt wrapping 0#8).sp = 0#8)
      ∧ ¬((pushAt Config.standard 1#8).cfg.stackPolicy = .fault ∧ (pushAt Config.standard 1#8).sp = 0#8) := by decide
/-- SP = 255 with R7 not named and with R7 named (the cell at 255 then holds 0), and both sides under OperandFirst. -/
theorem witness_PopLoadsTheTopOfTheStack :
    ((pushAt Config.standard 255#8).cfg.r7Order = .textOrder
      ∧ ((pushAt Config.standard 255#8).cfg.stackPolicy = .fault
        ∧ (if (0 : Fin 8) = 7 then (pushAt Config.standard 255#8).mem.read (pushAt Config.standard 255#8).sp.toNat
          else (pushAt Config.standard 255#8).sp) = 255#8)
      ∧ ¬((pushAt Config.standard 255#8).cfg.stackPolicy = .fault
        ∧ (if (7 : Fin 8) = 7 then (pushAt Config.standard 255#8).mem.read (pushAt Config.standard 255#8).sp.toNat
          else (pushAt Config.standard 255#8).sp) = 255#8))
      ∧ (pushAt (params .fault .fault .operandFirst) 255#8).cfg.r7Order = .operandFirst
      ∧ ((pushAt (params .fault .fault .operandFirst) 255#8).cfg.stackPolicy = .fault
        ∧ (pushAt (params .fault .fault .operandFirst) 255#8).sp = 255#8)
      ∧ (pushAt (params .fault .fault .operandFirst) 254#8).cfg.r7Order = .operandFirst
      ∧ ¬((pushAt (params .fault .fault .operandFirst) 254#8).cfg.stackPolicy = .fault
        ∧ (pushAt (params .fault .fault .operandFirst) 254#8).sp = 255#8) := by decide
/-- The three clauses: SP = 0; pc = 254 with room on the stack; pc = 253. -/
theorem witness_CallPushesTheReturnAddressAndJumps :
    ((callingAt 254 0#8).cfg.stackPolicy = .fault ∧ (callingAt 254 0#8).sp = 0#8)
      ∧ (¬((callingAt 254 1#8).cfg.stackPolicy = .fault ∧ (callingAt 254 1#8).sp = 0#8)
        ∧ (callingAt 254 1#8).cfg.addrPolicy = .fault ∧ 255 < (callingAt 254 1#8).pc.toNat + 2)
      ∧ ¬((callingAt 253 1#8).cfg.stackPolicy = .fault ∧ (callingAt 253 1#8).sp = 0#8)
      ∧ ¬((callingAt 253 1#8).cfg.addrPolicy = .fault ∧ 255 < (callingAt 253 1#8).pc.toNat + 2) := by decide
theorem witness_RetJumpsToTheTopOfTheStack :
    ((pushAt Config.standard 255#8).cfg.stackPolicy = .fault ∧ (pushAt Config.standard 255#8).sp = 255#8)
      ∧ ¬((pushAt Config.standard 254#8).cfg.stackPolicy = .fault ∧ (pushAt Config.standard 254#8).sp = 255#8) := by decide
theorem witness_HltHaltsAndKeepsEverythingElse : ∃ t, exec .hlt State.reset = .next t := ⟨_, rfl⟩
theorem witness_RegisterWritersFrame :
    (∃ x : Byte, Instr.add 7#8 0#8 = .ldi (regByte 7) x ∨ Instr.add 7#8 0#8 = .add (regByte 7) x
        ∨ Instr.add 7#8 0#8 = .mul (regByte 7) x)
      ∧ (Instr.add 7#8 0#8).wellFormed = true ∧ ∃ t, exec (.add 7#8 0#8) State.reset = .next t :=
  ⟨⟨0#8, .inr (.inl (by decide))⟩, by decide, _, rfl⟩
theorem witness_NoRegisterNoMemoryFrame :
    (Instr.cmp 0#8 7#8 = .hlt ∨ ∃ r x : Byte, Instr.cmp 0#8 7#8 = .prn r ∨ Instr.cmp 0#8 7#8 = .cmp r x
        ∨ Instr.cmp 0#8 7#8 = .jmp r ∨ Instr.cmp 0#8 7#8 = .jeq r ∨ Instr.cmp 0#8 7#8 = .jne r)
      ∧ (Instr.cmp 0#8 7#8).wellFormed = true ∧ ∃ t, exec (.cmp 0#8 7#8) State.reset = .next t :=
  ⟨.inr ⟨0#8, 7#8, .inr (.inl rfl)⟩, by decide, _, rfl⟩
/-- A PUSH that stores, and the address it stores to. -/
theorem witness_StackWritersFrame :
    (∃ r : Byte, Instr.push 0#8 = .push r ∨ Instr.push 0#8 = .call r)
      ∧ (∃ t, exec (.push 0#8) State.reset = .next t)
      ∧ spDec State.reset.cfg.stackPolicy State.reset.sp = .ok 0xF2#8 :=
  ⟨⟨0#8, .inl rfl⟩, ⟨_, rfl⟩, by decide⟩
theorem witness_StackReadersFrame :
    (Instr.pop 7#8 = .pop (regByte 7) ∨ Instr.pop 7#8 = .ret ∧ (7 : Fin 8) = 7)
      ∧ (∃ t, exec (.pop 7#8) State.reset = .next t) ∧ ∃ t, exec .ret State.reset = .next t :=
  ⟨.inl (by decide), ⟨_, rfl⟩, _, rfl⟩
theorem witness_OnlyCmpWritesTheFlags : ∃ t, step comparing = .next t ∧ t.fl ≠ comparing.fl := by
  obtain ⟨t, h, ht⟩ := exists_of_onNext (o := step comparing) (p := fun t => t.fl == 4#8) (by decide)
  have e : t.fl = 4#8 := by simpa using ht
  exact ⟨t, h, by rw [e]; decide⟩
/-- G in place of L. -/
theorem witness_LessAndGreaterAreUnobservable :
    (2#8).getLsbD 0 = (printing.setFl 4#8).fl.getLsbD 0 ∧ ∃ t, step (printing.setFl 4#8) = .next t := by
  refine ⟨by decide, ?_⟩
  obtain ⟨t, h, -⟩ := exists_of_onNext (o := step (printing.setFl 4#8)) (p := fun _ => true) (by decide)
  exact ⟨t, h⟩
theorem witness_FlagsTakeFourValuesAndUnsetOnlyBeforeCompare :
    comparing.fl ∈ [0b001#8, 0b010#8, 0b100#8, 0b000#8] ∧ ((Instr.cmp 0#8 1#8).wellFormed = true ∧ ∃ t, exec (.cmp 0#8 1#8) comparing = .next t)
      ∧ (∃ t, step comparing = .next t) ∧ comparing.fl ≠ 0b000#8 := by
  refine ⟨by decide, ⟨by decide, _, rfl⟩, ?_, by decide⟩
  obtain ⟨t, h, -⟩ := exists_of_onNext (o := step comparing) (p := fun _ => true) (by decide)
  exact ⟨t, h⟩
/-- A step that runs PRN, and one that does not. -/
theorem witness_OnlyPrnAppendsToOut :
    ((∃ t, step printing = .next t) ∧ printing.fetchInstr = .ok (.prn (regByte 0)))
      ∧ (∃ t, step halting = .next t) ∧ ∀ i : Fin 8, halting.fetchInstr ≠ .ok (.prn (regByte i)) := by
  obtain ⟨t, h, -⟩ := exists_of_onNext (o := step printing) (p := fun _ => true) (by decide)
  obtain ⟨u, hu, -⟩ := exists_of_onNext (o := step halting) (p := fun _ => true) (by decide)
  exact ⟨⟨⟨t, h⟩, by decide⟩, ⟨u, hu⟩, by decide⟩
theorem witness_OnlyPushAndCallWriteMemory :
    ∃ t, step (pushAt wrapping 0#8) = .next t ∧ t.mem.read 255 ≠ (pushAt wrapping 0#8).mem.read 255 := by
  obtain ⟨t, h, ht⟩ := exists_of_onNext (o := step (pushAt wrapping 0#8)) (p := fun t => t.mem.read 255 == 42#8) (by decide)
  have e : t.mem.read 255 = 42#8 := by simpa using ht
  exact ⟨t, h, by rw [e]; decide⟩
theorem witness_OnlyHltHalts : ∃ t, step halting = .next t ∧ t.status = .halted := by
  obtain ⟨t, h, ht⟩ := exists_of_onNext (o := step halting) (p := fun t => t.status == .halted) (by decide)
  exact ⟨t, h, by simpa using ht⟩
theorem witness_NoStepChangesTheParameters : ∃ t, step (pushAt wrapping 0#8) = .next t := by
  obtain ⟨t, h, -⟩ := exists_of_onNext (o := step (pushAt wrapping 0#8)) (p := fun _ => true) (by decide)
  exact ⟨t, h⟩
/-- S7. -/
theorem witness_PcReaches256OnlyBySequentialAdvance :
    atTop.pc.toNat ≤ 255 ∧ ∃ t, step atTop = .next t ∧ t.pc.toNat = 256 := by
  refine ⟨by decide, ?_⟩
  obtain ⟨t, h, ht⟩ := exists_of_onNext (o := step atTop) (p := fun t => t.pc.toNat == 256) (by decide)
  exact ⟨t, h, by simpa using ht⟩
/-- Two equal values, and a value with the wrong operand count. -/
theorem witness_IllegalOpcodeMapIsRefused :
    State.reset.status = .running
      ∧ (∃ n k : Mnemonic, n ≠ k
        ∧ ({ OpcodeMap.standard with mul := 0xA0#8 } : OpcodeMap).opcode n
          = ({ OpcodeMap.standard with mul := 0xA0#8 } : OpcodeMap).opcode k)
      ∧ ∃ i : Instr, (({ OpcodeMap.standard with hlt := 0x41#8 } : OpcodeMap).opcode i.mnemonic).toNat / 64
        ≠ i.operands.length :=
  ⟨rfl, ⟨.mul, .add, by decide, by decide⟩, .hlt, by decide⟩
/-- A state that meets the invariant, with pc = 256 and a next step. -/
theorem witness_StepKeepsTheInvariant : (State.reset.setPc 256#9).Inv ∧ ∃ t, step (State.reset.setPc 256#9) = .next t := by
  refine ⟨inv_of_reset_at 256#9 (by decide), ?_⟩
  obtain ⟨t, h, -⟩ := exists_of_onNext (o := step (State.reset.setPc 256#9)) (p := fun _ => true) (by decide)
  exact ⟨t, h⟩
theorem witness_ResetMeetsTheInvariant : wrapping.opcodes.legal = true := by decide
theorem witness_BootMeetsTheInvariant :
    Config.standard.opcodes.legal = true ∧ ∃ s, boot Config.standard standardDraw [0x82, 0, 5] = .next s := by
  refine ⟨by decide, ?_⟩
  obtain ⟨t, h, -⟩ := exists_of_onNext (o := boot Config.standard standardDraw [0x82, 0, 5]) (p := fun _ => true) (by decide)
  exact ⟨t, h⟩
/-- Both settings of GPR_RESET. -/
theorem witness_AssertingRstGivesTheResetValues :
    ({ Config.standard with gprReset := .zero } : Config).gprReset = .zero ∧ Config.standard.gprReset = .arbitrary := by decide
/-- A listing of 256 values of 255. -/
theorem witness_BootPlacesTheProgramAtZero :
    (List.replicate 256 255).length ≤ 256 ∧ ∀ v ∈ List.replicate 256 255, v ≤ 255 :=
  ⟨Nat.le_of_eq List.length_replicate, fun v h => by rw [List.eq_of_mem_replicate h]⟩
/-- One value too many, and one value too large. -/
theorem witness_IllFormedListingStartsNoRun :
    256 < (List.replicate 257 0).length ∧ ∃ v ∈ [256], 255 < v := 
  ⟨by rw [List.length_replicate]; decide, 256, List.mem_singleton.mpr rfl, by decide⟩
theorem witness_LoadPortUnderRstBootsTheProgram :
    ([0x82#8, 0#8, 5#8] : List Byte).length ≤ 256 ∧ ({ core := State.reset, rst := false } : PortState).rst = false := by decide
theorem witness_StepInputAndOutputs :
    (({ core := State.reset.halt, rst := false } : PortState).rst = false ∧ State.reset.halt.status ≠ .running)
      ∧ (∃ t, step printing = .next t) ∧ printing.fetchInstr = .ok (.prn (regByte 0))
      ∧ (∀ c fpc, State.reset.halt.status ≠ .faulted c fpc)
      ∧ ∀ c, (State.reset.raise c).status = .faulted c 0#9 := by
  obtain ⟨t, h, -⟩ := exists_of_onNext (o := step printing) (p := fun _ => true) (by decide)
  exact ⟨by decide, ⟨t, h⟩, by decide, nofun, fun _ => rfl⟩
/-- The values just inside the two ends. -/
theorem witness_StackPointerArithmetic : (1#8) ≠ 0#8 ∧ (254#8) ≠ 255#8 := by decide
/-- Two pushes with SP = 2 under Fault, and with SP = 1, which wraps, under Wrap. -/
theorem witness_PushesThenPopsRestoreTheRegisters :
    ((pushAt Config.standard 2#8).status = .running ∧ (pushAt Config.standard 2#8).mem.wf = true
        ∧ (∀ r ∈ ([0, 6] : List (Fin 8)), r ≠ 7)
        ∧ ([0, 6] : List (Fin 8)).length
          ≤ (match (pushAt Config.standard 2#8).cfg.stackPolicy with
            | .fault => (pushAt Config.standard 2#8).sp.toNat | .wrap => 256))
      ∧ (pushAt wrapping 1#8).status = .running ∧ (pushAt wrapping 1#8).mem.wf = true
      ∧ ([0, 6] : List (Fin 8)).length
          ≤ (match (pushAt wrapping 1#8).cfg.stackPolicy with
            | .fault => (pushAt wrapping 1#8).sp.toNat | .wrap => 256) := by decide
theorem witness_RetAfterCallResumesAfterTheCall :
    (callingAt 253 1#8).status = .running ∧ (callingAt 253 1#8).mem.wf = true
      ∧ ∃ t u : State, exec (.call 1#8) (callingAt 253 1#8) = .next t ∧ t.status = .running
        ∧ u.cfg = t.cfg ∧ u.sp = t.sp ∧ u.mem.read t.sp.toNat = t.mem.read t.sp.toNat := by
  obtain ⟨t, h, ht⟩ := exists_of_onNext (o := exec (.call 1#8) (callingAt 253 1#8)) (p := fun t => t.status == .running)
    (by decide)
  exact ⟨by decide, by decide, t, t, h, by simpa using ht, rfl, rfl, rfl⟩
theorem witness_FetchSeesTheByteAPushStored :
    (pushAt Config.standard 1#8).mem.wf = true ∧ (0 : Fin 8) ≠ 7 ∧ (pushAt Config.standard 1#8).status = .running
      ∧ ∃ t u : State, exec (.push (regByte 0)) (pushAt Config.standard 1#8) = .next t ∧ t.status = .running
        ∧ u.mem = t.mem ∧ u.pc = t.sp.setWidth 9 := by
  obtain ⟨t, h, ht⟩ := exists_of_onNext (o := exec (.push (regByte 0)) (pushAt Config.standard 1#8))
    (p := fun t => t.status == .running) (by decide)
  exact ⟨by decide, by decide, by decide, t, t.jumpTo t.sp, h, by simpa using ht, rfl, rfl⟩
theorem witness_JmpToItselfHangs :
    spinning.status = .running ∧ spinning.cfg.opcodes.legal = true ∧ spinning.fetchInstr = .ok (.jmp (regByte 0))
      ∧ (spinning.reg 0).setWidth 9 = spinning.pc := by decide

/-- The last cell of memory under the default map; and a map that gives 0x00 to HLT is legal (log 17). -/
theorem witness_ZeroCellRaisesIllegalInstruction :
    (State.reset.setPc 255#9).status = .running ∧ (State.reset.setPc 255#9).cfg.opcodes.legal = true
      ∧ (State.reset.setPc 255#9).cfg.opcodes.ret ≠ 0x00#8 ∧ (State.reset.setPc 255#9).cfg.opcodes.hlt ≠ 0x00#8
      ∧ (State.reset.setPc 255#9).pc.toNat ≤ 255
      ∧ (State.reset.setPc 255#9).mem.read (State.reset.setPc 255#9).pc.toNat = 0x00#8
      ∧ ({ OpcodeMap.standard with hlt := 0x00#8 } : OpcodeMap).legal = true := by decide

end Sys2Proof.Tests
end

section
/-! PROOFS. The flags register and the load port (spec/10_state.md R31, R41). First the rules for what an instruction's
computation, which may raise a fault, can commit to. -/

namespace Sys2Proof.Machine

/-! What a committed computation meets -/

/-- The next state, if the outcome is one, meets `P`. -/
def NextMeets (P : State → Prop) (o : Host.Outcome State Fault Refusal) : Prop := ∀ t, o = .next t → P t

@[simp] theorem State.commit_pure (s t : State) : s.commit (pure t) = .next t := rfl

/-- A computation that only answers `u` commits to `u`. -/
theorem State.nextMeets_commit_pure {s u : State} {P : State → Prop} (hu : P u) : NextMeets P (s.commit (pure u)) := by
  intro t h
  obtain rfl : u = t := by simpa using h
  exact hu

/-- A computation in two parts commits to the start state with a fault raised, or to what its second part commits to. -/
theorem State.nextMeets_commit_bind {α : Type} {s : State} {x : Attempt α} {f : α → Attempt State} {P : State → Prop}
    (hraise : ∀ c, x = .error c → P (s.raise c)) (hok : ∀ a, x = .ok a → NextMeets P (s.commit (f a))) :
    NextMeets P (s.commit (x >>= f)) := by
  cases x with
  | ok a => exact hok a rfl
  | error c => exact State.nextMeets_commit_pure (s := s) (hraise c rfl)

/-! What an instruction and a step leave in FL -/

/-- A computation in two parts keeps FL where its second part does: a fault keeps it (R203). -/
theorem State.keepsFl_commit_bind {α : Type} {s : State} {x : Attempt α} {f : α → Attempt State}
    (hok : ∀ a, NextMeets (fun t => t.fl = s.fl) (s.commit (f a))) :
    NextMeets (fun t => t.fl = s.fl) (s.commit (x >>= f)) :=
  State.nextMeets_commit_bind (fun c _ => s.raise_fl c) fun a _ => hok a

/-- Every instruction but CMP keeps FL (R32). -/
theorem exec_fl_of_ne_cmp {i : Instr} {s : State} (hi : ∀ a b, i ≠ .cmp a b) :
    NextMeets (fun t => t.fl = s.fl) (exec i s) := by
  have keep {u : State} (hu : u.fl = s.fl) : NextMeets (fun t => t.fl = s.fl) (s.commit (pure u)) :=
    State.nextMeets_commit_pure hu
  cases i with
  | cmp a b => exact absurd rfl (hi a b)
  | ldi | prn | jmp | ret => exact State.keepsFl_commit_bind fun _ => keep rfl
  | mul | add | push => exact State.keepsFl_commit_bind fun _ => State.keepsFl_commit_bind fun _ => keep rfl
  | call =>
    exact State.keepsFl_commit_bind fun _ => State.keepsFl_commit_bind fun _ => State.keepsFl_commit_bind fun _ => keep rfl
  | pop =>
    refine State.keepsFl_commit_bind fun _ => ?_
    cases s.cfg.r7Order with
    | textOrder | operandFirst => exact State.keepsFl_commit_bind fun _ => keep rfl
  | jeq | jne => exact State.keepsFl_commit_bind fun _ => keep (by split <;> rfl)
  | hlt => exact keep rfl

/-- A byte that passes the register check is the byte of the register it names (R104). -/
theorem eq_regByte_of_regOperand {r : Byte} {i : Fin 8} (h : regOperand r = .ok i) : r = regByte i := by
  obtain ⟨j, rfl, hj⟩ | ⟨-, he⟩ := regOperand_cases r
  · obtain rfl : j = i := by simpa [hj] using h
    rfl
  · simp [he] at h

/-- A CMP of two registers writes their comparison to FL and goes on (R122). -/
theorem exec_cmp_regByte (i j : Fin 8) (s : State) :
    exec (.cmp (regByte i) (regByte j)) s = .next ((s.setFl (compareFlags (s.reg i) (s.reg j))).advance .cmp) := by
  simp [exec, execCmp, bind, Except.bind]

/-- A CMP keeps FL, where it faults, or leaves in it the comparison of the registers it names. -/
theorem exec_cmp_fl {a b : Byte} {s : State} :
    NextMeets (fun t => t.fl = s.fl ∨ ∃ i j, a = regByte i ∧ b = regByte j ∧ t.fl = compareFlags (s.reg i) (s.reg j))
      (exec (.cmp a b) s) := by
  refine State.nextMeets_commit_bind (fun _ _ => .inl rfl) fun i hi => ?_
  refine State.nextMeets_commit_bind (fun _ _ => .inl rfl) fun j hj => ?_
  exact State.nextMeets_commit_pure (.inr ⟨i, j, eq_regByte_of_regOperand hi, eq_regByte_of_regOperand hj, rfl⟩)

/-- A step keeps FL, or runs a CMP of two registers and leaves their comparison in it (R32). -/
theorem step_fl_cases {s t : State} (h : step s = .next t) :
    t.fl = s.fl ∨ ∃ i j, s.fetchInstr = .ok (.cmp (regByte i) (regByte j)) ∧ t.fl = compareFlags (s.reg i) (s.reg j) := by
  obtain ⟨-, -, ⟨c, -, rfl⟩ | ⟨i, hf, h⟩⟩ := step_next_cases h
  · exact .inl rfl
  · by_cases hi : ∃ a b, i = .cmp a b
    · obtain ⟨a, b, rfl⟩ := hi
      obtain hfl | ⟨i, j, rfl, rfl, hfl⟩ := exec_cmp_fl t h
      · exact .inl hfl
      · exact .inr ⟨i, j, hf, hfl⟩
    · exact .inl (exec_fl_of_ne_cmp (fun a b e => hi ⟨a, b, e⟩) t h)

/-- A comparison has exactly one of E, G and L (R31, R122). -/
theorem compareFlags_cases (x y : Byte) :
    compareFlags x y = 0b001#8 ∨ compareFlags x y = 0b010#8 ∨ compareFlags x y = 0b100#8 := by
  unfold compareFlags
  split
  · exact .inl rfl
  · split
    · exact .inr (.inr rfl)
    · exact .inr (.inl rfl)

/-- A step keeps FL or leaves exactly one of E, G and L in it. -/
theorem step_fl_kept_or_oneFlag {s t : State} (h : step s = .next t) :
    t.fl = s.fl ∨ t.fl = 0b001#8 ∨ t.fl = 0b010#8 ∨ t.fl = 0b100#8 := by
  obtain hfl | ⟨i, j, -, hfl⟩ := step_fl_cases h
  · exact .inl hfl
  · exact .inr (hfl ▸ compareFlags_cases (s.reg i) (s.reg j))

/-- Settles O35: a step keeps FL or writes a comparison to it, and a comparison is one of E, G and L. -/
theorem flagsTakeFourValuesAndUnsetOnlyBeforeCompare : Obligations.FlagsTakeFourValuesAndUnsetOnlyBeforeCompare := by
  refine ⟨fun s t h hs => ?_, fun a b s t hwf h => ?_, fun s t h hs => ?_⟩
  · obtain hfl | hfl | hfl | hfl := step_fl_kept_or_oneFlag h
    · exact hfl ▸ hs
    all_goals simp [hfl]
  · obtain ⟨ha, hb⟩ : registerByteLegal a = true ∧ registerByteLegal b = true := by simpa [Instr.wellFormed] using hwf
    obtain ⟨i, rfl⟩ := registerByteLegal_cases ha
    obtain ⟨j, rfl⟩ := registerByteLegal_cases hb
    obtain rfl : _ = t := by simpa only [exec_cmp_regByte, Host.Outcome.next.injEq] using h
    exact compareFlags_cases (s.reg i) (s.reg j)
  · obtain hfl | hfl | hfl | hfl := step_fl_kept_or_oneFlag h
    · exact hfl ▸ hs
    all_goals simp [hfl]

/-! The load port -/

/-- A transaction with a next state goes first; the others go on from that state. -/
theorem transactAll_cons_next {p q : PortState} {x : Transaction} (h : transact p x = .next q) (xs : List Transaction) :
    transactAll p (x :: xs) = transactAll q xs := by
  simp only [transactAll, h]

/-- Under `rst` the load port stores the byte (R41). -/
theorem transact_load_of_rst {p : PortState} (h : p.rst = true) (a v : Byte) :
    transact p (.load a v) = .next { p with core := p.core.store a v } := by
  simp [transact, h]

/-- With `rst` released a load is refused (R41). -/
theorem transact_load_of_released {p : PortState} (h : p.rst = false) (a v : Byte) :
    transact p (.load a v) = .refused .loadWhileRunning := by
  simp [transact, h]

/-- Under `rst` the load-port writes of a program inside 0–255 place its bytes in memory and change nothing else. -/
theorem transactAll_loadsFrom (bytes : List Byte) (rest : List Transaction) {p : PortState} {a : Nat} (hrst : p.rst = true)
    (ha : a + bytes.length ≤ 256) :
    transactAll p (loadsFrom a bytes ++ rest)
      = transactAll { p with core := { p.core with mem := Memory.place p.core.mem a bytes } } rest := by
  induction bytes generalizing p a with
  | nil => rfl
  | cons b bytes ih =>
    simp only [List.length_cons] at ha
    have haddr : (BitVec.ofNat 8 a).toNat = a := Nat.mod_eq_of_lt (by omega)
    calc transactAll p (loadsFrom a (b :: bytes) ++ rest)
        = transactAll { p with core := p.core.store (BitVec.ofNat 8 a) b } (loadsFrom (a + 1) bytes ++ rest) :=
          transactAll_cons_next (transact_load_of_rst hrst _ b) _
      _ = transactAll { p with core := { p.core with mem := Memory.place p.core.mem a (b :: bytes) } } rest := by
          rw [ih (p := { p with core := p.core.store (BitVec.ofNat 8 a) b }) hrst (by omega)]
          simp only [State.store, haddr, Memory.place]

/-- At most 256 bytes are a listing the loader accepts (R240). -/
theorem listingWellFormed_bytes {program : List Byte} (h : program.length ≤ 256) :
    listingWellFormed (program.map BitVec.toNat) = true := by
  have hvalue (b : Byte) : b.toNat ≤ 255 := Nat.le_of_lt_succ b.isLt
  simp [listingWellFormed, h, hvalue]

/-- A program of at most 256 bytes boots with its bytes placed from address 0 (R51). -/
theorem boot_bytes (cfg : Config) (draw : Vector Byte 7) {program : List Byte} (h : program.length ≤ 256) :
    boot cfg draw (program.map BitVec.toNat)
      = .next { State.resetWith cfg draw with mem := Memory.place [] 0 program } := by
  have hbytes : (program.map BitVec.toNat).map (BitVec.ofNat 8) = program := by simp [Function.comp_def]
  simp [boot, listingWellFormed_bytes h, hbytes]

/-- Settles O48: the load-port writes place the program in the reset memory as the boot does. -/
theorem loadPortUnderRstBootsTheProgram : Obligations.LoadPortUnderRstBootsTheProgram := by
  refine ⟨fun p draw program hlen => ⟨_, boot_bytes p.core.cfg draw hlen, ?_⟩, fun p a v h => transact_load_of_released h a v⟩
  calc transactAll p (.assertRst draw :: loadsFrom 0 program ++ [.releaseRst])
      = transactAll { core := State.resetWith p.core.cfg draw, rst := true } (loadsFrom 0 program ++ [.releaseRst]) := rfl
    _ = _ := transactAll_loadsFrom program [.releaseRst] rfl (by omega)

end Sys2Proof.Machine
end

section
/-! PROOFS. Memory after a load (spec/20_memory.md R51): what placing bytes leaves in each cell, and the boot. -/

namespace Sys2Proof.Machine

/-! What placed bytes read as -/

/-- Placing leaves every cell below its first address alone. -/
theorem Memory.read_place_of_lt (bytes : List Byte) (m : Memory) {a b : Nat} (h : b < a) :
    (Memory.place m a bytes).read b = m.read b := by
  induction bytes generalizing m a with
  | nil => rfl
  | cons v rest ih =>
    calc (Memory.place (m.write a v) (a + 1) rest).read b
        = (m.write a v).read b := ih (m.write a v) (by omega)
      _ = m.read b := Memory.read_write_other m v (by omega)

/-- From its first address on, a placed memory reads as the bytes, and past them as before. -/
theorem Memory.read_place_add (bytes : List Byte) {m : Memory} {a : Nat} (k : Nat) (ha : a + bytes.length ≤ 256)
    (hm : m.wf = true) : (Memory.place m a bytes).read (a + k) = bytes.getD k (m.read (a + k)) := by
  induction bytes generalizing m a k with
  | nil => rfl
  | cons v rest ih =>
    simp only [List.length_cons] at ha
    cases k with
    | zero =>
      calc (Memory.place (m.write a v) (a + 1) rest).read a
          = (m.write a v).read a := Memory.read_place_of_lt rest (m.write a v) (by omega)
        _ = v := Memory.read_write_same m a v hm
    | succ k =>
      have hother : (m.write a v).read (a + (k + 1)) = m.read (a + (k + 1)) := Memory.read_write_other m v (by omega)
      have haddr : a + 1 + k = a + (k + 1) := by omega
      have hrest := ih (a := a + 1) k (by omega) (Memory.write_wf m a v (by omega) hm)
      rwa [haddr, hother] at hrest

/-- A program placed at 0 in empty memory: its bytes, then zeros. -/
theorem Memory.read_place_nil_zero {program : List Byte} (h : program.length ≤ 256) (a : Nat) :
    (Memory.place [] 0 program).read a = program.getD a 0#8 := by
  simpa using Memory.read_place_add program (m := []) (a := 0) a (by omega) rfl

/-! The boot -/

/-- Values of at most 255 are the values of bytes. -/
theorem map_toNat_map_ofNat_of_le {listing : List Nat} (h : ∀ v ∈ listing, v ≤ 255) :
    (listing.map (BitVec.ofNat 8)).map BitVec.toNat = listing := by
  rw [List.map_map]
  exact (List.map_congr_left fun v hv => Nat.mod_eq_of_lt (Nat.lt_succ_of_le (h v hv))).trans (List.map_id listing)

/-- Settles O46: the boot places the listing's bytes from address 0 in the empty memory of the reset state. -/
theorem bootPlacesTheProgramAtZero : Obligations.BootPlacesTheProgramAtZero := by
  intro cfg draw listing hlen hvalues
  obtain ⟨program, rfl⟩ : ∃ program : List Byte, program.map BitVec.toNat = listing :=
    ⟨_, map_toNat_map_ofNat_of_le hvalues⟩
  rw [List.length_map] at hlen
  refine ⟨_, boot_bytes cfg draw hlen, fun a => ?_, rfl⟩
  calc ((Memory.place [] 0 program).read a).toNat
      = (program.getD a 0#8).toNat := by rw [Memory.read_place_nil_zero hlen]
    _ = (program.map BitVec.toNat).getD a 0 := (List.getD_map program 0#8 BitVec.toNat).symm

end Sys2Proof.Machine
end

section
/-! PROOFS. The length of an instruction (spec/30_encoding.md R70). -/

namespace Sys2Proof

/-- The top two bits of an opcode byte are its quotient by 64. -/
theorem operandCount_eq_div (op : Byte) : operandCount op = op.toNat / 64 := by
  rw [operandCount, BitVec.toNat_ushiftRight, Nat.shiftRight_eq_div_pow]

/-- An instruction is as long as its opcode byte and its format's operands. -/
theorem length_encode (m : OpcodeMap) (i : Instr) : (encode m i).length = 1 + i.mnemonic.operandCount := by
  rw [encode, List.length_cons, i.length_operands, Nat.add_comm]

/-- Settles O3: a legal opcode's top two bits are its format's operand count, which gives the length and is at most 2. -/
theorem opcodeTopBitsGiveTheLength : Obligations.OpcodeTopBitsGiveTheLength := by
  intro m hm i
  have hbits : (m.opcode i.mnemonic).toNat / 64 = i.mnemonic.operandCount := by
    rw [← operandCount_eq_div, OpcodeMap.operandCount_opcode hm]
  rw [hbits]
  exact ⟨rfl, length_encode m i, i.mnemonic.operandCount_le⟩

end Sys2Proof
end

section
/-! PROOFS. The sequencer (spec/40_sequencer.md): the operand fetch (R103) and the register check (R104). -/

namespace Sys2Proof.Machine

/-! The operand fetch -/

/-- An operand byte that ADDR_POLICY lets the fetch reach is the cell at pc + k, modulo 256 (R103). -/
theorem State.fetchOperand_of_reached {s : State} {k : Nat} (h : ¬(s.cfg.addrPolicy = .fault ∧ 255 < s.pc.toNat + k)) :
    s.fetchOperand k = .ok (s.mem.read ((s.pc.toNat + k) % 256)) := by
  obtain ⟨ha, -⟩ | ⟨-, hpast⟩ := offsetAddress_cases s.cfg.addrPolicy s.pc k
  · simp [State.fetchOperand, ha, bind, Except.bind, pure, Except.pure]
  · exact absurd hpast h

/-- An operand byte past 255 under Fault raises ADDRESS_RANGE of its address (R103). -/
theorem State.fetchOperand_of_past {s : State} {k : Nat} (hp : s.cfg.addrPolicy = .fault) (h : 255 < s.pc.toNat + k) :
    s.fetchOperand k = .error (.addressRange (s.pc.toNat + k)) := by
  obtain ⟨-, hreached⟩ | ⟨ha, -⟩ := offsetAddress_cases s.cfg.addrPolicy s.pc k
  · exact absurd ⟨hp, h⟩ hreached
  · simp [State.fetchOperand, ha, bind, Except.bind]

/-- Where ADDR_POLICY lets the fetch reach operand n, operands 1 to n are the cells after pc, modulo 256. -/
theorem State.fetchOperands_of_reached {s : State} {n : Nat} (h : ¬(s.cfg.addrPolicy = .fault ∧ 255 < s.pc.toNat + n)) :
    s.fetchOperands n = .ok ((List.range n).map fun j => s.mem.read ((s.pc.toNat + (j + 1)) % 256)) := by
  induction n with
  | zero => rfl
  | succ n ih =>
    have hbefore : ¬(s.cfg.addrPolicy = .fault ∧ 255 < s.pc.toNat + n) := fun ⟨hp, hlt⟩ => h ⟨hp, by omega⟩
    simp [State.fetchOperands, ih hbefore, State.fetchOperand_of_reached h, List.range_succ, bind, Except.bind, pure,
      Except.pure]

/-- Where operand n is past 255 under Fault, the first operand past it is at 256, and its fetch ends the whole fetch. -/
theorem State.fetchOperands_of_past {s : State} {n : Nat} (hpc : s.pc.toNat ≤ 255) (hp : s.cfg.addrPolicy = .fault)
    (h : 255 < s.pc.toNat + n) : s.fetchOperands n = .error (.addressRange 256) := by
  induction n with
  | zero => omega
  | succ n ih =>
    by_cases hbefore : 255 < s.pc.toNat + n
    · simp [State.fetchOperands, ih hbefore, bind, Except.bind]
    · have hfirst : s.pc.toNat + (n + 1) = 256 := by omega
      have hok := State.fetchOperands_of_reached fun hpast => hbefore hpast.2
      simp [State.fetchOperands, hok, State.fetchOperand_of_past hp h, hfirst, bind, Except.bind]

/-- Settles O10: the fetch reaches operand n, or it raises at the first address past 255. -/
theorem operandFetchFollowsAddrPolicy : Obligations.OperandFetchFollowsAddrPolicy := by
  intro s n hpc
  split
  next hpast => exact State.fetchOperands_of_past hpc hpast.1 hpast.2
  next hreached => exact State.fetchOperands_of_reached hreached

/-! The register check: an ill-formed instruction -/

/-- A computation that starts with the check of `a` raises ILLEGAL_REGISTER of the first illegal byte of `a :: rest`
where, after a legal `a`, what follows raises it of the first illegal byte of `rest`. -/
theorem State.commit_regOperand_bind_of_find? {s : State} {a r : Byte} {rest : List Byte} {f : Fin 8 → Attempt State}
    (h : (a :: rest).find? (fun x => decide (7 < x.toNat)) = some r)
    (hrest : ∀ i, rest.find? (fun x => decide (7 < x.toNat)) = some r →
      s.commit (f i) = .next (s.raise (.illegalRegister r))) :
    s.commit (regOperand a >>= f) = .next (s.raise (.illegalRegister r)) := by
  obtain ⟨i, rfl, hok⟩ | ⟨hbad, herr⟩ := regOperand_cases a
  · have hlegal : ¬7 < (regByte i).toNat := by rw [regByte_toNat]; omega
    rw [List.find?_cons_of_neg (by simpa using hlegal)] at h
    rw [hok]
    exact hrest i h
  · rw [List.find?_cons_of_pos (by simpa using hbad)] at h
    obtain rfl : a = r := Option.some.inj h
    rw [herr]
    rfl

/-- The first illegal register operand is raised from the start state, before any effect (R104). -/
theorem exec_of_illegal_registerOperand {i : Instr} {s : State} {r : Byte}
    (h : i.registerOperands.find? (fun x => decide (7 < x.toNat)) = some r) :
    exec i s = .next (s.raise (.illegalRegister r)) := by
  cases i with
  | ret | hlt => exact nomatch h
  | ldi | prn | push | pop | call | jmp | jeq | jne => exact State.commit_regOperand_bind_of_find? h fun _ h => nomatch h
  | mul | add | cmp =>
    exact State.commit_regOperand_bind_of_find? h fun _ h => State.commit_regOperand_bind_of_find? h fun _ h => nomatch h

/-! The register check: a well-formed instruction -/

/-- From `s` to `t` no ILLEGAL_REGISTER was raised: one that `t` records stood in `s` already. -/
def State.NoIllegalRegisterTo (s t : State) : Prop :=
  ∀ r fpc, t.status = .faulted (.illegalRegister r) fpc → t.status = s.status

/-- A computation that never raises ILLEGAL_REGISTER may go first. -/
theorem State.noIllegalRegister_commit_bind {α : Type} {s : State} {x : Attempt α} {f : α → Attempt State}
    (hx : ∀ r, x ≠ .error (.illegalRegister r)) (hok : ∀ a, NextMeets s.NoIllegalRegisterTo (s.commit (f a))) :
    NextMeets s.NoIllegalRegisterTo (s.commit (x >>= f)) := by
  refine State.nextMeets_commit_bind (fun c hc r fpc h => ?_) fun a _ => hok a
  obtain ⟨rfl, -⟩ : c = .illegalRegister r ∧ s.pc = fpc := by simpa using h
  exact absurd hc (hx r)

/-- The check of a legal register byte raises nothing, so it may go first. -/
theorem State.noIllegalRegister_commit_regOperand {s : State} {r : Byte} {f : Fin 8 → Attempt State}
    (hr : registerByteLegal r = true) (hok : ∀ i, NextMeets s.NoIllegalRegisterTo (s.commit (f i))) :
    NextMeets s.NoIllegalRegisterTo (s.commit (regOperand r >>= f)) := by
  obtain ⟨i, rfl⟩ := registerByteLegal_cases hr
  exact State.noIllegalRegister_commit_bind (by simp) hok

/-- SP_dec raises no ILLEGAL_REGISTER. -/
theorem spDec_ne_illegalRegister (p : StackPolicy) (v r : Byte) : spDec p v ≠ .error (.illegalRegister r) := by
  obtain ⟨h, -⟩ | ⟨h, -⟩ := spDec_cases p v <;> simp [h]

/-- SP_inc raises no ILLEGAL_REGISTER. -/
theorem spInc_ne_illegalRegister (p : StackPolicy) (v r : Byte) : spInc p v ≠ .error (.illegalRegister r) := by
  obtain ⟨h, -⟩ | ⟨h, -⟩ := spInc_cases p v <;> simp [h]

/-- CALL's return address raises no ILLEGAL_REGISTER. -/
theorem returnAddress_ne_illegalRegister (p : AddrPolicy) (pc : PcWord) (r : Byte) :
    returnAddress p pc ≠ .error (.illegalRegister r) := by
  obtain ⟨h, -⟩ | ⟨h, -⟩ := returnAddress_cases p pc <;> simp [h]

/-- A well-formed instruction passes its register checks, and no other fault of its own is ILLEGAL_REGISTER. -/
theorem exec_noIllegalRegister_of_wellFormed {i : Instr} {s : State} (hwf : i.wellFormed = true) :
    NextMeets s.NoIllegalRegisterTo (exec i s) := by
  have keep {u : State} (hu : u.status = s.status) : NextMeets s.NoIllegalRegisterTo (s.commit (pure u)) :=
    State.nextMeets_commit_pure fun _ _ _ => hu
  cases i with
  | ldi | prn | jmp => exact State.noIllegalRegister_commit_regOperand hwf fun _ => keep rfl
  | jeq | jne => exact State.noIllegalRegister_commit_regOperand hwf fun _ => keep (by split <;> rfl)
  | mul | add | cmp =>
    obtain ⟨ha, hb⟩ := Bool.and_eq_true_iff.mp hwf
    refine State.noIllegalRegister_commit_regOperand ha fun _ => ?_
    exact State.noIllegalRegister_commit_regOperand hb fun _ => keep rfl
  | push =>
    refine State.noIllegalRegister_commit_regOperand hwf fun _ => ?_
    exact State.noIllegalRegister_commit_bind (spDec_ne_illegalRegister _ _) fun _ => keep rfl
  | call =>
    refine State.noIllegalRegister_commit_regOperand hwf fun _ => ?_
    refine State.noIllegalRegister_commit_bind (spDec_ne_illegalRegister _ _) fun _ => ?_
    exact State.noIllegalRegister_commit_bind (returnAddress_ne_illegalRegister _ _) fun _ => keep rfl
  | pop =>
    refine State.noIllegalRegister_commit_regOperand hwf fun _ => ?_
    cases s.cfg.r7Order with
    | textOrder | operandFirst =>
      exact State.noIllegalRegister_commit_bind (spInc_ne_illegalRegister _ _) fun _ => keep rfl
  | ret => exact State.noIllegalRegister_commit_bind (spInc_ne_illegalRegister _ _) fun _ => keep rfl
  | hlt => exact State.nextMeets_commit_pure (s := s) fun _ _ h => nomatch h

/-- Settles O11: the first illegal register operand is raised from the start state, and a well-formed instruction has
none to raise. -/
theorem illegalRegisterRaisedBeforeAnyEffect : Obligations.IllegalRegisterRaisedBeforeAnyEffect :=
  ⟨fun _ _ _ h => exec_of_illegal_registerOperand h, fun _ _ t hwf h => exec_noIllegalRegister_of_wellFormed hwf t h⟩

end Sys2Proof.Machine
end

section
/-! PROOFS. The ALU instructions (spec/41_alu.md R120 to R123): what each computes of two bytes, the state in which each
ends on two registers, and that state's pc by the length of the instruction. -/

namespace Sys2Proof.Machine

/-! The three results as operations on bytes -/

/-- A sum that drops its carry is the sum of bytes (R120). -/
theorem aluAdd_eq_add (x y : Byte) : aluAdd x y = x + y := by
  simp [aluAdd, BitVec.ofNat_add]

/-- The low byte of a product does not depend on its high byte, so it is the low byte of the 16-bit product (R121). -/
theorem aluMul_eq_setWidth_mul (x y : Byte) : aluMul x y = (x.setWidth 16 * y.setWidth 16).setWidth 8 := by
  have hbytes : aluMul x y = x * y := by simp [aluMul, BitVec.ofNat_mul]
  rw [hbytes, BitVec.setWidth_mul _ _ (by decide)]
  simp

/-! The instructions on two registers -/

/-- An ADD of two registers writes their sum to the first and goes on (R120). -/
theorem exec_add_regByte (i j : Fin 8) (s : State) :
    exec (.add (regByte i) (regByte j)) s = .next ((s.setReg i (aluAdd (s.reg i) (s.reg j))).advance .add) := by
  simp [exec, execAdd, bind, Except.bind]

/-- A MUL of two registers writes their product to the first and goes on (R121). -/
theorem exec_mul_regByte (i j : Fin 8) (s : State) :
    exec (.mul (regByte i) (regByte j)) s = .next ((s.setReg i (aluMul (s.reg i) (s.reg j))).advance .mul) := by
  simp [exec, execMul, bind, Except.bind]

/-- Settles O18: the sum of bytes is the sum modulo 256, and ADD's three bytes give the pc. -/
theorem addWritesTheSumModulo256 : Obligations.AddWritesTheSumModulo256 := by
  refine ⟨fun _ _ => rfl, fun i j s => ?_⟩
  rw [exec_add_regByte, State.advance_eq, aluAdd_eq_add]
  rfl

/-- Settles O19: the low byte of the product is that of the 16-bit product, and MUL's three bytes give the pc. -/
theorem mulWritesTheLowByteOfTheProduct : Obligations.MulWritesTheLowByteOfTheProduct := by
  refine ⟨fun _ _ => rfl, fun i j s => ?_⟩
  rw [exec_mul_regByte, State.advance_eq, aluMul_eq_setWidth_mul]
  rfl

/-- Settles O20: CMP writes the comparison of the two registers whole, and its three bytes give the pc. -/
theorem cmpSetsExactlyOneFlag : Obligations.CmpSetsExactlyOneFlag := by
  refine ⟨fun _ _ => rfl, fun i j s => ?_⟩
  rw [exec_cmp_regByte, State.advance_eq]
  rfl

end Sys2Proof.Machine
end

section
/-! PROOFS. Load-immediate and print (spec/42_load_print.md): LDI and PRN on a register (R140, R142), and the output
channel over every instruction (R143). -/

namespace Sys2Proof.Machine

/-! The instructions on a register -/

/-- An LDI to a register writes the immediate there and goes on (R140). -/
theorem exec_ldi_regByte (i : Fin 8) (imm : Byte) (s : State) :
    exec (.ldi (regByte i) imm) s = .next ((s.setReg i imm).advance .ldi) := by
  simp [exec, execLdi, bind, Except.bind]

/-- A PRN of a register appends its value and goes on (R142). -/
theorem exec_prn_regByte (i : Fin 8) (s : State) :
    exec (.prn (regByte i)) s = .next ((s.emit (s.reg i)).advance .prn) := by
  simp [exec, execPrn, bind, Except.bind]

/-- Settles O16: LDI writes the immediate to the register, and its three bytes give the pc. -/
theorem ldiLoadsTheImmediate : Obligations.LdiLoadsTheImmediate := by
  refine ⟨fun _ _ => rfl, fun i imm s => ?_⟩
  rw [exec_ldi_regByte, State.advance_eq]
  rfl

/-- Settles O17: PRN appends the register's value, and its two bytes give the pc. -/
theorem prnAppendsTheRegister : Obligations.PrnAppendsTheRegister := by
  refine ⟨fun _ => rfl, fun i s => ?_⟩
  rw [exec_prn_regByte, State.advance_eq]
  rfl

/-! The output channel -/

/-- What a raised fault keeps (R203), a computation in two parts keeps where its second part does. -/
theorem State.keeps_commit_bind {α β : Type} {s : State} {x : Attempt α} {f : α → Attempt State} (g : State → β)
    (hraise : ∀ c, g (s.raise c) = g s) (hok : ∀ a, NextMeets (fun t => g t = g s) (s.commit (f a))) :
    NextMeets (fun t => g t = g s) (s.commit (x >>= f)) :=
  State.nextMeets_commit_bind (fun c _ => hraise c) fun a _ => hok a

/-- Every instruction but a PRN of a legal register keeps out (R143): a PRN of another byte ends in its register check. -/
theorem exec_out_of_ne_prn {i : Instr} {s : State} (hi : ∀ j, i ≠ .prn (regByte j)) :
    NextMeets (fun t => t.out = s.out) (exec i s) := by
  have keep {u : State} (hu : u.out = s.out) : NextMeets (fun t => t.out = s.out) (s.commit (pure u)) :=
    State.nextMeets_commit_pure hu
  cases i with
  | prn r =>
    refine State.nextMeets_commit_bind (fun c _ => s.raise_out c) fun j hj => ?_
    exact absurd (congrArg Instr.prn (eq_regByte_of_regOperand hj)) (hi j)
  | ldi | jmp | ret => exact State.keeps_commit_bind State.out s.raise_out fun _ => keep rfl
  | mul | add | cmp | push =>
    refine State.keeps_commit_bind State.out s.raise_out fun _ => ?_
    exact State.keeps_commit_bind State.out s.raise_out fun _ => keep rfl
  | call =>
    refine State.keeps_commit_bind State.out s.raise_out fun _ => ?_
    refine State.keeps_commit_bind State.out s.raise_out fun _ => ?_
    exact State.keeps_commit_bind State.out s.raise_out fun _ => keep rfl
  | pop =>
    refine State.keeps_commit_bind State.out s.raise_out fun _ => ?_
    cases s.cfg.r7Order with
    | textOrder | operandFirst => exact State.keeps_commit_bind State.out s.raise_out fun _ => keep rfl
  | jeq | jne => exact State.keeps_commit_bind State.out s.raise_out fun _ => keep (by split <;> rfl)
  | hlt => exact keep rfl

/-- Settles O36: the fetch's fault keeps out, and of the instructions only a PRN of a legal register writes it. -/
theorem onlyPrnAppendsToOut : Obligations.OnlyPrnAppendsToOut := by
  intro s t h
  obtain ⟨-, -, ⟨c, hf, rfl⟩ | ⟨i, hf, h⟩⟩ := step_next_cases h
  · exact ⟨fun j hj => by simp [hf] at hj, fun _ => s.raise_out c⟩
  · refine ⟨fun j hj => ?_, fun hne => exec_out_of_ne_prn (fun j hi => hne j (hi ▸ hf)) t h⟩
    obtain rfl : i = .prn (regByte j) := Except.ok.inj (hf.symm.trans hj)
    obtain rfl : _ = t := by simpa only [exec_prn_regByte, Host.Outcome.next.injEq] using h
    rfl

end Sys2Proof.Machine
end

section
/-! PROOFS. The stack (spec/43_stack.md): the stack pointer's arithmetic (R166), and PUSH and POP of a register (R160,
R163). -/

namespace Sys2Proof.Machine

/-! The stack pointer's arithmetic -/

/-- SP_dec of 0 under Fault raises SP_UNDERFLOW (R166). -/
theorem spDec_of_underflow {p : StackPolicy} {v : Byte} (h : p = .fault ∧ v = 0#8) :
    spDec p v = .error (.spUnderflow 0#8) := by
  obtain ⟨-, hroom⟩ | ⟨hdec, -⟩ := spDec_cases p v
  · exact absurd h hroom
  · exact hdec

/-- Anywhere else SP_dec gives one less, modulo 256 (R166). -/
theorem spDec_of_room {p : StackPolicy} {v : Byte} (h : ¬(p = .fault ∧ v = 0#8)) : spDec p v = .ok (v - 1#8) := by
  obtain ⟨hdec, -⟩ | ⟨-, hend⟩ := spDec_cases p v
  · exact hdec
  · exact absurd hend h

/-- SP_inc of 255 under Fault raises SP_OVERFLOW (R166). -/
theorem spInc_of_overflow {p : StackPolicy} {v : Byte} (h : p = .fault ∧ v = 255#8) :
    spInc p v = .error (.spOverflow 255#8) := by
  obtain ⟨-, hroom⟩ | ⟨hinc, -⟩ := spInc_cases p v
  · exact absurd h hroom
  · exact hinc

/-- Anywhere else SP_inc gives one more, modulo 256 (R166). -/
theorem spInc_of_room {p : StackPolicy} {v : Byte} (h : ¬(p = .fault ∧ v = 255#8)) : spInc p v = .ok (v + 1#8) := by
  obtain ⟨hinc, -⟩ | ⟨-, hend⟩ := spInc_cases p v
  · exact hinc
  · exact absurd hend h

/-- Settles O50: the four ends compute, and inside the range the byte's arithmetic does not wrap. -/
theorem stackPointerArithmetic : Obligations.StackPointerArithmetic := by
  refine ⟨rfl, rfl, rfl, rfl, fun p v hv => ?_, fun p v hv => ?_⟩
  · exact ⟨v - 1#8, spDec_of_room fun hend => hv hend.2, by bv_omega⟩
  · exact ⟨v + 1#8, spInc_of_room fun hend => hv hend.2, by bv_omega⟩

/-! PUSH -/

/-- A PUSH with SP at 0 under Fault raises SP_UNDERFLOW from its start state (R160). -/
theorem exec_push_regByte_of_underflow (i : Fin 8) {s : State} (h : s.cfg.stackPolicy = .fault ∧ s.sp = 0#8) :
    exec (.push (regByte i)) s = .next (s.raise (.spUnderflow 0#8)) := by
  simp [exec, execPush, spDec_of_underflow h, bind, Except.bind]

/-- A PUSH with room moves SP down, stores the register in the cell there and goes on (R160). -/
theorem exec_push_regByte_of_room (i : Fin 8) {s : State} (h : ¬(s.cfg.stackPolicy = .fault ∧ s.sp = 0#8)) :
    exec (.push (regByte i)) s =
      .next (((s.setSp (s.sp - 1#8)).store (s.sp - 1#8)
        (if i = 7 ∧ s.cfg.r7Order = .textOrder then s.sp - 1#8 else s.reg i)).advance .push) := by
  simp [exec, execPush, spDec_of_room h, operandAroundSp_setSp, bind, Except.bind]

/-- Settles O21: PUSH follows SP_dec, and its two bytes give the pc. -/
theorem pushStoresTheRegisterBelowSp : Obligations.PushStoresTheRegisterBelowSp := by
  refine ⟨fun _ => rfl, fun i s => ⟨exec_push_regByte_of_underflow i, fun hroom => ?_⟩⟩
  rw [exec_push_regByte_of_room i hroom, State.advance_eq]
  rfl

/-! POP -/

/-- What SP_inc increments in a POP to `i` under TextOrder: the register is written first, so for R7 it is the popped
value (R163). -/
theorem State.setReg_load_sp (s : State) (i : Fin 8) :
    (s.setReg i (s.load s.sp)).sp = if i = 7 then s.mem.read s.sp.toNat else s.sp :=
  s.setReg_sp i (s.load s.sp)

/-- A POP under TextOrder writes the register, and then SP_inc takes the SP that this leaves (R163). -/
theorem exec_pop_regByte_of_textOrder (i : Fin 8) {s : State} (ho : s.cfg.r7Order = .textOrder) :
    exec (.pop (regByte i)) s =
      s.commit (do
        let sp ← spInc s.cfg.stackPolicy (if i = 7 then s.mem.read s.sp.toNat else s.sp)
        pure (((s.setReg i (s.load s.sp)).setSp sp).advance .pop)) := by
  simp [exec, execPop, ho, State.setReg_load_sp, bind, Except.bind]

/-- A POP under OperandFirst gives SP_inc the old SP and writes the register last (R163). -/
theorem exec_pop_regByte_of_operandFirst (i : Fin 8) {s : State} (ho : s.cfg.r7Order = .operandFirst) :
    exec (.pop (regByte i)) s =
      s.commit (do
        let sp ← spInc s.cfg.stackPolicy s.sp
        pure (((s.setSp sp).setReg i (s.load s.sp)).advance .pop)) := by
  simp [exec, execPop, ho, bind, Except.bind]

/-- A computation that starts with SP_inc of 255 under Fault ends in SP_OVERFLOW, raised from the start state (R203). -/
theorem State.commit_spInc_bind_of_overflow {s : State} {p : StackPolicy} {v : Byte} (h : p = .fault ∧ v = 255#8)
    (f : Byte → Attempt State) : s.commit (spInc p v >>= f) = .next (s.raise (.spOverflow 255#8)) := by
  rw [spInc_of_overflow h]
  rfl

/-- A computation that starts with SP_inc inside the range goes on with one more. -/
theorem State.commit_spInc_bind_of_room {s : State} {p : StackPolicy} {v : Byte} (h : ¬(p = .fault ∧ v = 255#8))
    (f : Byte → Attempt State) : s.commit (spInc p v >>= f) = s.commit (f (v + 1#8)) := by
  rw [spInc_of_room h]
  rfl

/-- Settles O22: under each order POP follows SP_inc of its argument, and its two bytes give the pc. -/
theorem popLoadsTheTopOfTheStack : Obligations.PopLoadsTheTopOfTheStack := by
  refine ⟨fun _ => rfl, fun i s ho => ?_, fun i s ho => ?_⟩
  · rw [exec_pop_regByte_of_textOrder i ho]
    refine ⟨fun hend => State.commit_spInc_bind_of_overflow hend _, fun hroom => ?_⟩
    rw [State.commit_spInc_bind_of_room hroom, State.advance_eq]
    rfl
  · rw [exec_pop_regByte_of_operandFirst i ho]
    refine ⟨fun hend => State.commit_spInc_bind_of_overflow hend _, fun hroom => ?_⟩
    rw [State.commit_spInc_bind_of_room hroom, State.advance_eq]
    rfl

end Sys2Proof.Machine
end

section
/-! PROOFS. Control transfer (spec/44_control.md): CALL and RET with the faults of each (R180, R183), the three jumps
through a register (R186, R189, R191), and HLT (R194). -/

namespace Sys2Proof.Machine

/-! CALL -/

/-- A return address past 255 under Fault raises ADDRESS_RANGE (R180). -/
theorem returnAddress_of_past {p : AddrPolicy} {pc : PcWord} (h : p = .fault ∧ 255 < pc.toNat + 2) :
    returnAddress p pc = .error (.addressRange (pc.toNat + 2)) := by
  obtain ⟨-, hreached⟩ | ⟨hpast, -⟩ := returnAddress_cases p pc
  · exact absurd h hreached
  · exact hpast

/-- Any other return address is pc + 2, modulo 256 (R180). -/
theorem returnAddress_of_reached {p : AddrPolicy} {pc : PcWord} (h : ¬(p = .fault ∧ 255 < pc.toNat + 2)) :
    returnAddress p pc = .ok (BitVec.ofNat 8 ((pc.toNat + 2) % 256)) := by
  obtain ⟨hback, -⟩ | ⟨-, hpast⟩ := returnAddress_cases p pc
  · exact hback
  · exact absurd hpast h

/-- A CALL with SP at 0 under Fault raises SP_UNDERFLOW from its start state, whatever its return address (R206). -/
theorem exec_call_regByte_of_underflow (i : Fin 8) {s : State} (h : s.cfg.stackPolicy = .fault ∧ s.sp = 0#8) :
    exec (.call (regByte i)) s = .next (s.raise (.spUnderflow 0#8)) := by
  simp [exec, execCall, spDec_of_underflow h, bind, Except.bind]

/-- A CALL with room on the stack follows the check of its return address, and jumps to the register as it reads around
the SP write (R180). -/
theorem exec_call_regByte_of_room (i : Fin 8) {s : State} (h : ¬(s.cfg.stackPolicy = .fault ∧ s.sp = 0#8)) :
    exec (.call (regByte i)) s =
      s.commit (do
        let back ← returnAddress s.cfg.addrPolicy s.pc
        pure (((s.setSp (s.sp - 1#8)).store (s.sp - 1#8) back).jumpTo
          (if i = 7 ∧ s.cfg.r7Order = .textOrder then s.sp - 1#8 else s.reg i))) := by
  simp [exec, execCall, spDec_of_room h, operandAroundSp_setSp, bind, Except.bind]

/-- Settles O23: SP_dec is checked before the return address, and a CALL that passes both pushes and jumps. -/
theorem callPushesTheReturnAddressAndJumps : Obligations.CallPushesTheReturnAddressAndJumps := by
  refine ⟨fun _ => rfl, fun i s =>
    ⟨exec_call_regByte_of_underflow i, fun hroom hpast => ?_, fun hroom hreached => ?_⟩⟩
  · rw [exec_call_regByte_of_room i hroom, returnAddress_of_past hpast]
    rfl
  · rw [exec_call_regByte_of_room i hroom, returnAddress_of_reached hreached]
    rfl

/-! RET -/

/-- A RET follows SP_inc and jumps to the byte at the old SP (R183). -/
theorem exec_ret (s : State) :
    exec .ret s =
      s.commit (do
        let sp ← spInc s.cfg.stackPolicy s.sp
        pure ((s.setSp sp).jumpTo (s.load s.sp))) := rfl

/-- Settles O24: RET follows SP_inc of SP. -/
theorem retJumpsToTheTopOfTheStack : Obligations.RetJumpsToTheTopOfTheStack := by
  refine ⟨rfl, fun s => ?_⟩
  rw [exec_ret]
  refine ⟨fun hend => State.commit_spInc_bind_of_overflow hend _, fun hroom => ?_⟩
  rw [State.commit_spInc_bind_of_room hroom]
  rfl

/-! The jumps through a register -/

/-- A JMP goes to the value of its register (R186). -/
theorem exec_jmp_regByte (i : Fin 8) (s : State) : exec (.jmp (regByte i)) s = .next (s.jumpTo (s.reg i)) := by
  simp [exec, execJmp, bind, Except.bind]

/-- A JEQ goes to the value of its register when FL.E is set, and on when it is not (R189). -/
theorem exec_jeq_regByte (i : Fin 8) (s : State) :
    exec (.jeq (regByte i)) s = .next (if equalSet s.fl then s.jumpTo (s.reg i) else s.advance .jeq) := by
  simp [exec, execJeq, bind, Except.bind]

/-- A JNE goes on when FL.E is set, and to the value of its register when it is not (R191). -/
theorem exec_jne_regByte (i : Fin 8) (s : State) :
    exec (.jne (regByte i)) s = .next (if equalSet s.fl then s.advance .jne else s.jumpTo (s.reg i)) := by
  simp [exec, execJne, bind, Except.bind]

/-- Settles O25: a jump to the register writes the pc and nothing else. -/
theorem jmpJumpsToTheRegister : Obligations.JmpJumpsToTheRegister :=
  ⟨fun _ => rfl, exec_jmp_regByte⟩

/-- Settles O26: by the two values of FL.E; the sequential path is JEQ's two bytes (R192). -/
theorem jeqJumpsWhenEqual : Obligations.JeqJumpsWhenEqual := by
  refine ⟨fun _ => rfl, fun i s => ?_⟩
  rw [exec_jeq_regByte, State.advance_eq, equalSet]
  cases s.fl.getLsbD 0 with
  | true | false => rfl

/-- Settles O27: by the two values of FL.E; the sequential path is JNE's two bytes (R192). -/
theorem jneJumpsWhenNotEqual : Obligations.JneJumpsWhenNotEqual := by
  refine ⟨fun _ => rfl, fun i s => ?_⟩
  rw [exec_jne_regByte, State.advance_eq, equalSet]
  cases s.fl.getLsbD 0 with
  | true | false => rfl

/-! HLT -/

/-- A HLT halts and computes nothing else (R194). -/
theorem exec_hlt (s : State) : exec .hlt s = .next s.halt := rfl

/-- Settles O28: HLT ends in the halted state, and a state whose status is HALTED has no next step (R34). -/
theorem hltHaltsAndKeepsEverythingElse : Obligations.HltHaltsAndKeepsEverythingElse := by
  refine ⟨rfl, exec_hlt, fun s t h u hu => ?_⟩
  obtain rfl : s.halt = t := by simpa only [exec_hlt, Host.Outcome.next.injEq] using h
  simp [step_halted s.halt_status] at hu

end Sys2Proof.Machine
end

section
/-! PROOFS. The faults (spec/60_exceptions.md): a step raises the first fault whose condition holds (R206), and a faulting
step changes nothing but the status (R203). The fetch's faults come first, then an instruction's own, then the step. -/

namespace Sys2Proof.Machine

/-! The faults of the fetch -/

/-- The fault of an instruction once it is fetched: its first illegal register operand, then what its own rule raises
(conditions 4 to 6 of R206). -/
def State.instrFault (s : State) (i : Instr) : Option FaultCause :=
  match i.registerOperands.find? fun r => decide (r.toNat > 7) with
  | some r => some (.illegalRegister r)
  | none => s.executeFault i

/-- Past 255 the fetch raises ADDRESS_RANGE of the pc (R101). -/
theorem State.fetchInstr_of_pc_past {s : State} (hpc : s.pc.toNat > 255) :
    s.fetchInstr = .error (.addressRange s.pc.toNat) := by
  simp [State.fetchInstr, State.fetchOpcode, hpc, bind, Except.bind]

/-- An opcode byte outside the map ends the fetch in ILLEGAL_INSTRUCTION (R102). -/
theorem State.fetchInstr_of_unlisted {s : State} (hpc : ¬s.pc.toNat > 255)
    (hn : s.cfg.opcodes.mnemonic? (s.mem.read s.pc.toNat) = none) :
    s.fetchInstr = .error (.illegalInstruction (s.mem.read s.pc.toNat)) := by
  simp [State.fetchInstr, State.fetchOpcode, hpc, hn, bind, Except.bind]

/-- A selected opcode byte carries its mnemonic's operand count (R74). -/
theorem operandCount_of_mnemonic? {m : OpcodeMap} {op : Byte} {n : Mnemonic} (hm : m.legal = true)
    (hn : m.mnemonic? op = some n) : operandCount op = n.operandCount := by
  rw [← OpcodeMap.opcode_of_mnemonic? hn, OpcodeMap.operandCount_opcode hm]

/-- An instruction takes from its operand list the bytes its format reads, and no default (R71). -/
theorem toInstr_getD_map_range (n : Mnemonic) (f : Nat → Byte) :
    n.toInstr (((List.range n.operandCount).map f).getD 0 0#8) (((List.range n.operandCount).map f).getD 1 0#8)
      = n.toInstr (f 0) (f 1) := by
  cases n <;> rfl

section Listed

variable {s : State} {n : Mnemonic} (hm : s.cfg.opcodes.legal = true) (hpc : ¬s.pc.toNat > 255)
  (hn : s.cfg.opcodes.mnemonic? (s.mem.read s.pc.toNat) = some n)
include hm hpc hn

/-- A listed opcode byte goes on to its mnemonic's operand bytes (R103). -/
theorem State.fetchInstr_of_listed :
    s.fetchInstr = (do
      let operands ← s.fetchOperands n.operandCount
      pure (n.toInstr (operands.getD 0 0#8) (operands.getD 1 0#8))) := by
  simp [State.fetchInstr, State.fetchOpcode, hpc, hn, operandCount_of_mnemonic? hm hn, bind, Except.bind]

/-- Where the operands reach past 255 under Fault, the fetch and the first fault are ADDRESS_RANGE of 256 (R103). -/
theorem State.fetch_firstFault_of_operand_past (hp : s.cfg.addrPolicy = .fault)
    (hpast : 255 < s.pc.toNat + n.operandCount) :
    s.fetchInstr = .error (.addressRange 256) ∧ s.firstFault = some (.addressRange 256) := by
  have hle := n.operandCount_le
  constructor
  · rw [State.fetchInstr_of_listed hm hpc hn, State.fetchOperands_of_past (by omega) hp hpast]
    rfl
  · simp only [State.firstFault, if_neg hpc, hn, operandCount_of_mnemonic? hm hn, hp, true_and]
    split
    next => congr; omega
    next => rw [if_pos (by omega)]; congr; omega

/-- Where the fetch reaches the operands, the first fault is the instruction's. -/
theorem State.fetch_firstFault_of_reached (hreached : ¬(s.cfg.addrPolicy = .fault ∧ 255 < s.pc.toNat + n.operandCount)) :
    s.fetchInstr = .ok (n.toInstr (s.operandByte 1) (s.operandByte 2))
      ∧ s.firstFault = s.instrFault (n.toInstr (s.operandByte 1) (s.operandByte 2)) := by
  constructor
  · rw [State.fetchInstr_of_listed hm hpc hn, State.fetchOperands_of_reached hreached]
    exact congrArg Except.ok (toInstr_getD_map_range n _)
  · have h1 : ¬(s.cfg.addrPolicy = .fault ∧ 1 ≤ n.operandCount ∧ s.pc.toNat + 1 > 255) :=
      fun ⟨hp, _, _⟩ => hreached ⟨hp, by omega⟩
    have h2 : ¬(s.cfg.addrPolicy = .fault ∧ 2 ≤ n.operandCount ∧ s.pc.toNat + 2 > 255) :=
      fun ⟨hp, _, _⟩ => hreached ⟨hp, by omega⟩
    simp only [State.firstFault, if_neg hpc, hn, operandCount_of_mnemonic? hm hn, if_neg h1, if_neg h2]
    rfl

end Listed

/-- The first fault is the fetch's, or the fetch gives an instruction and it is the instruction's (R206). -/
theorem State.fetch_firstFault_cases {s : State} (hm : s.cfg.opcodes.legal = true) :
    (∃ c, s.fetchInstr = .error c ∧ s.firstFault = some c)
      ∨ ∃ i, s.fetchInstr = .ok i ∧ s.firstFault = s.instrFault i := by
  by_cases hpc : s.pc.toNat > 255
  · exact .inl ⟨_, State.fetchInstr_of_pc_past hpc, if_pos hpc⟩
  cases hn : s.cfg.opcodes.mnemonic? (s.mem.read s.pc.toNat) with
  | none => exact .inl ⟨_, State.fetchInstr_of_unlisted hpc hn, by simp only [State.firstFault, if_neg hpc, hn]⟩
  | some n =>
    by_cases hpast : s.cfg.addrPolicy = .fault ∧ 255 < s.pc.toNat + n.operandCount
    · exact .inl ⟨_, State.fetch_firstFault_of_operand_past hm hpc hn hpast.1 hpast.2⟩
    · exact .inr ⟨_, State.fetch_firstFault_of_reached hm hpc hn hpast⟩

/-! The faults of an instruction -/

/-- From `s` the outcome is the fault given, raised from `s`; where none is given, it is a next state that keeps the
status or halts. -/
def State.EndsIn (s : State) (fault : Option FaultCause) (o : Host.Outcome State Fault Refusal) : Prop :=
  match fault with
  | some c => o = .next (s.raise c)
  | none => ∃ t, o = .next t ∧ (t.status = s.status ∨ t.status = .halted)

/-- A computation that starts with SP_inc and keeps the status after it raises SP_OVERFLOW at 255 under Fault, and no
other fault (R166). -/
theorem State.endsIn_commit_spInc {s : State} {p : StackPolicy} {v : Byte} {f : Byte → State}
    (hf : ∀ sp, (f sp).status = s.status) :
    s.EndsIn (if p = .fault ∧ v = 255#8 then some (.spOverflow 255#8) else none)
      (s.commit (do
        let sp ← spInc p v
        pure (f sp))) := by
  split
  next hend => exact State.commit_spInc_bind_of_overflow hend _
  next hroom => exact ⟨_, State.commit_spInc_bind_of_room hroom _, .inl (hf _)⟩

/-- The register byte 7 is R7's. -/
theorem regByte_eq_seven_iff (i : Fin 8) : regByte i = 7#8 ↔ i = 7 := by
  decide +revert

/-- A PUSH of a register ends in SP_dec's fault or in none (R160). -/
theorem exec_push_endsIn (i : Fin 8) (s : State) :
    s.EndsIn (s.executeFault (.push (regByte i))) (exec (.push (regByte i)) s) := by
  simp only [State.executeFault]
  split
  next hend => exact exec_push_regByte_of_underflow i hend
  next hroom => exact ⟨_, exec_push_regByte_of_room i hroom, .inl rfl⟩

/-- A CALL through a register ends in SP_dec's fault, else in its return address's, else in none (R206). -/
theorem exec_call_endsIn (i : Fin 8) (s : State) :
    s.EndsIn (s.executeFault (.call (regByte i))) (exec (.call (regByte i)) s) := by
  simp only [State.executeFault]
  split
  next hend => exact exec_call_regByte_of_underflow i hend
  next hroom =>
    rw [exec_call_regByte_of_room i hroom]
    split
    next hpast =>
      rw [returnAddress_of_past hpast]
      rfl
    next hreached =>
      rw [returnAddress_of_reached hreached]
      exact ⟨_, rfl, .inl rfl⟩

/-- A POP to a register ends in the fault of SP_inc, whose argument is the popped value for R7 under TextOrder, or in none
(R163). -/
theorem exec_pop_endsIn (i : Fin 8) (s : State) :
    s.EndsIn (s.executeFault (.pop (regByte i))) (exec (.pop (regByte i)) s) := by
  cases ho : s.cfg.r7Order with
  | textOrder =>
    rw [exec_pop_regByte_of_textOrder i ho]
    simp only [State.executeFault, ho, regByte_eq_seven_iff, and_true]
    exact State.endsIn_commit_spInc fun _ => rfl
  | operandFirst =>
    rw [exec_pop_regByte_of_operandFirst i ho]
    simp only [State.executeFault, ho, reduceCtorEq, and_false, if_false]
    exact State.endsIn_commit_spInc fun _ => rfl

/-- The check of a legal register byte raises nothing, so what follows it gives the end. -/
theorem State.endsIn_commit_regOperand {s : State} {fault : Option FaultCause} {r : Byte} {f : Fin 8 → Attempt State}
    (hr : registerByteLegal r = true) (hok : ∀ i, s.EndsIn fault (s.commit (f i))) :
    s.EndsIn fault (s.commit (regOperand r >>= f)) := by
  obtain ⟨i, rfl⟩ := registerByteLegal_cases hr
  rw [regOperand_regByte]
  exact hok i

/-- A well-formed instruction ends in the fault its own rule raises, or in none (conditions 5 and 6 of R206). -/
theorem exec_endsIn_executeFault {i : Instr} (s : State) (hwf : i.wellFormed = true) :
    s.EndsIn (s.executeFault i) (exec i s) := by
  cases i with
  | ldi | prn | jmp => exact State.endsIn_commit_regOperand hwf fun _ => ⟨_, rfl, .inl rfl⟩
  | jeq | jne => exact State.endsIn_commit_regOperand hwf fun _ => ⟨_, rfl, .inl (by split <;> rfl)⟩
  | mul | add | cmp =>
    obtain ⟨ha, hb⟩ := Bool.and_eq_true_iff.mp hwf
    refine State.endsIn_commit_regOperand ha fun _ => ?_
    exact State.endsIn_commit_regOperand hb fun _ => ⟨_, rfl, .inl rfl⟩
  | push r =>
    obtain ⟨j, rfl⟩ := registerByteLegal_cases hwf
    exact exec_push_endsIn j s
  | pop r =>
    obtain ⟨j, rfl⟩ := registerByteLegal_cases hwf
    exact exec_pop_endsIn j s
  | call r =>
    obtain ⟨j, rfl⟩ := registerByteLegal_cases hwf
    exact exec_call_endsIn j s
  | ret => exact State.endsIn_commit_spInc fun _ => rfl
  | hlt => exact ⟨_, exec_hlt s, .inr s.halt_status⟩

/-- An instruction without an illegal register operand is well-formed (R72, R104). -/
theorem wellFormed_of_find?_registerOperands {i : Instr}
    (h : i.registerOperands.find? (fun r => decide (r.toNat > 7)) = none) : i.wellFormed = true := by
  have hlegal (r : Byte) (hr : r ∈ i.registerOperands) : registerByteLegal r = true := by
    simpa [registerByteLegal] using List.find?_eq_none.mp h r hr
  cases i with
  | ret | hlt => rfl
  | ldi r | prn r | push r | pop r | call r | jmp r | jeq r | jne r => exact hlegal r (List.mem_singleton_self r)
  | mul a b | add a b | cmp a b =>
    exact Bool.and_eq_true_iff.mpr ⟨hlegal a List.mem_cons_self, hlegal b (List.mem_cons_of_mem a (List.mem_singleton_self b))⟩

/-- An instruction ends in its first fault, or in none (conditions 4 to 6 of R206). -/
theorem exec_endsIn_instrFault (i : Instr) (s : State) : s.EndsIn (s.instrFault i) (exec i s) := by
  unfold State.instrFault
  split
  next r hr => exact exec_of_illegal_registerOperand hr
  next hnone => exact exec_endsIn_executeFault s (wellFormed_of_find?_registerOperands hnone)

/-! The faults of a step -/

/-- A running step ends in the first fault, or in none (R206). -/
theorem step_endsIn_firstFault {s : State} (hs : s.status = .running) (hm : s.cfg.opcodes.legal = true) :
    s.EndsIn s.firstFault (step s) := by
  obtain ⟨c, hf, hfault⟩ | ⟨i, hf, hfault⟩ := State.fetch_firstFault_cases hm
  · rw [hfault]
    exact step_fetch_error hs hm hf
  · rw [hfault, step_fetch_ok hs hm hf]
    exact exec_endsIn_instrFault i s

/-- Settles O13: the step ends in the first fault; without one it keeps RUNNING or halts, so it is not FAULTED. -/
theorem stepRaisesTheFirstFaultInPriorityOrder : Obligations.StepRaisesTheFirstFaultInPriorityOrder := by
  intro s hs hm
  have hend := step_endsIn_firstFault hs hm
  refine ⟨fun c hc => ?_, fun hnone => ?_⟩
  · rwa [hc] at hend
  · rw [hnone] at hend
    obtain ⟨t, ht, hstatus | hstatus⟩ := hend
    · exact ⟨t, ht, fun c fpc => by simp [hstatus, hs]⟩
    · exact ⟨t, ht, fun c fpc => by simp [hstatus]⟩

/-- Settles O14: a step to FAULTED has a first fault, by O13, and is the start state with that fault raised. -/
theorem faultingStepChangesOnlyTheStatus : Obligations.FaultingStepChangesOnlyTheStatus := by
  intro s t c fpc h ht
  obtain ⟨hs, hm, -⟩ := step_next_cases h
  obtain ⟨hraise, hnone⟩ := stepRaisesTheFirstFaultInPriorityOrder s hs hm
  cases hfault : s.firstFault with
  | none =>
    obtain ⟨u, hu, hnot⟩ := hnone hfault
    obtain rfl : t = u := Host.Outcome.next.inj (h.symm.trans hu)
    exact absurd ht (hnot c fpc)
  | some d =>
    obtain rfl : t = s.raise d := Host.Outcome.next.inj (h.symm.trans (hraise d hfault))
    obtain ⟨rfl, -⟩ : d = c ∧ s.pc = fpc := by simpa using ht
    rfl

end Sys2Proof.Machine
end

section
/-! PROOFS. The assertion of `rst` (spec/70_reset_and_hazards.md R230): the registers after a reset, then the transaction. -/

namespace Sys2Proof.Machine

/-- SP's reset value does not depend on GPR_RESET (R24). -/
@[simp] theorem State.sp_resetWith (cfg : Config) (draw : Vector Byte 7) : (State.resetWith cfg draw).sp = 0xF3#8 := by
  rw [State.sp, State.reg, State.resetWith]
  cases cfg.gprReset with
  | arbitrary | zero => rfl

/-- Under Zero a reset clears R0 to R6 (R23). -/
theorem State.reg_resetWith_of_zero {cfg : Config} (h : cfg.gprReset = .zero) (draw : Vector Byte 7) (i : Fin 7) :
    (State.resetWith cfg draw).reg i.castSucc = 0#8 := by
  rw [State.reg, State.resetWith, h]
  fin_cases i <;> rfl

/-- Under Arbitrary a reset gives R0 to R6 the draw (R23). -/
theorem State.reg_resetWith_of_arbitrary {cfg : Config} (h : cfg.gprReset = .arbitrary) (draw : Vector Byte 7) (i : Fin 7) :
    (State.resetWith cfg draw).reg i.castSucc = draw.get i := by
  rw [State.reg, State.resetWith, h]
  fin_cases i <;> rfl

/-- Asserting `rst` resets the core under its own parameters, whatever its state and the level of `rst` (R230, R242). -/
theorem transact_assertRst (p : PortState) (draw : Vector Byte 7) :
    transact p (.assertRst draw) = .next { core := State.resetWith p.core.cfg draw, rst := true } := rfl

/-- Settles O45: the assertion answers the reset state of the core's parameters, whose registers are SP's reset value and
what GPR_RESET says. -/
theorem assertingRstGivesTheResetValues : Obligations.AssertingRstGivesTheResetValues := by
  intro p draw
  exact ⟨_, transact_assertRst p draw, rfl, rfl, Memory.read_nil, State.sp_resetWith p.core.cfg draw, rfl, rfl, rfl, rfl,
    fun hzero => State.reg_resetWith_of_zero hzero draw, fun harbitrary => State.reg_resetWith_of_arbitrary harbitrary draw⟩

end Sys2Proof.Machine
end

section
/-! PROOFS. The decoder against the encoder (spec/30_encoding.md): the two round trips under a legal map, and the refusal
of the opcodes outside the map (R76). -/

namespace Sys2Proof

/-! What the decoder answers after it has selected a mnemonic -/

/-- A listed opcode with all its operand bytes decodes to its mnemonic's instruction. -/
theorem decode_of_listed {m : OpcodeMap} {op : Byte} {n : Mnemonic} {rest : List Byte} (hn : m.mnemonic? op = some n)
    (hlen : operandCount op ≤ rest.length) :
    decode m (op :: rest) = .ok (n.toInstr (rest.getD 0 0#8) (rest.getD 1 0#8), rest.drop (operandCount op)) := by
  simp only [decode, hn, if_neg (Nat.not_lt.mpr hlen)]

/-- A listed opcode without all its operand bytes is refused for the first one missing (R103). -/
theorem decode_of_truncated {m : OpcodeMap} {op : Byte} {n : Mnemonic} {rest : List Byte} (hn : m.mnemonic? op = some n)
    (hlen : rest.length < operandCount op) : decode m (op :: rest) = .error (.missingOperand (rest.length + 1)) := by
  simp only [decode, hn, if_pos hlen]

/-- An opcode outside the map is refused, whatever follows it (R76, R78). -/
theorem decode_of_unlisted {m : OpcodeMap} {op : Byte} (hn : m.mnemonic? op = none) (rest : List Byte) :
    decode m (op :: rest) = .error (.illegalInstruction op) := by
  simp only [decode, hn]

/-- Where the decoder answers an instruction, the opcode is listed and its operand bytes are all there. -/
theorem decode_ok_cases {m : OpcodeMap} {bytes rest : List Byte} {i : Instr} (h : decode m bytes = .ok (i, rest)) :
    ∃ op tail n, bytes = op :: tail ∧ m.mnemonic? op = some n ∧ operandCount op ≤ tail.length
      ∧ i = n.toInstr (tail.getD 0 0#8) (tail.getD 1 0#8) ∧ rest = tail.drop (operandCount op) := by
  cases bytes with
  | nil => exact nomatch h
  | cons op tail =>
    cases hn : m.mnemonic? op with
    | none => simp [decode_of_unlisted hn] at h
    | some n =>
      obtain hlen | hlen := Nat.lt_or_ge tail.length (operandCount op)
      · simp [decode_of_truncated hn hlen] at h
      · obtain ⟨rfl, rfl⟩ : _ = i ∧ _ = rest := by simpa [decode_of_listed hn hlen] using h
        exact ⟨op, tail, n, rfl, hn, hlen, rfl, rfl⟩

/-! The operand bytes and the instruction -/

/-- An instruction is its mnemonic with its operand bytes, whatever bytes follow them. -/
theorem Instr.toInstr_operands_append (i : Instr) (rest : List Byte) :
    i.mnemonic.toInstr ((i.operands ++ rest).getD 0 0#8) ((i.operands ++ rest).getD 1 0#8) = i := by
  cases i <;> rfl

/-- The operand bytes of the instruction read from a list are the first bytes of the list, as many as the format says. -/
theorem Mnemonic.operands_toInstr (n : Mnemonic) {bytes : List Byte} (h : n.operandCount ≤ bytes.length) :
    (n.toInstr (bytes.getD 0 0#8) (bytes.getD 1 0#8)).operands = bytes.take n.operandCount := by
  match n, bytes with
  | .ret, _ | .hlt, _ => rfl
  | .prn, _ :: _ | .push, _ :: _ | .pop, _ :: _ | .call, _ :: _ | .jmp, _ :: _ | .jeq, _ :: _ | .jne, _ :: _ => rfl
  | .ldi, _ :: _ :: _ | .mul, _ :: _ :: _ | .add, _ :: _ :: _ | .cmp, _ :: _ :: _ => rfl

/-! The statements -/

/-- Settles O1: a legal map's opcode selects its mnemonic, and carries as many operand bytes as the encoding holds. -/
theorem decodeOfEncodeIsTheInstruction : Obligations.DecodeOfEncodeIsTheInstruction := by
  intro m hm i rest
  have hcount : operandCount (m.opcode i.mnemonic) = i.operands.length := by
    rw [OpcodeMap.operandCount_opcode hm, i.length_operands]
  have hlen : operandCount (m.opcode i.mnemonic) ≤ (i.operands ++ rest).length := by simp [hcount]
  calc decode m (encode m i ++ rest)
      = .ok (i.mnemonic.toInstr ((i.operands ++ rest).getD 0 0#8) ((i.operands ++ rest).getD 1 0#8),
          (i.operands ++ rest).drop (operandCount (m.opcode i.mnemonic))) :=
        decode_of_listed (OpcodeMap.mnemonic?_opcode hm i.mnemonic) hlen
    _ = .ok (i, rest) := by rw [i.toInstr_operands_append, hcount, List.drop_left]

/-- Settles O2: the opcode selected is the instruction's, and the bytes taken are its operands. -/
theorem decodedBytesAreTheEncoding : Obligations.DecodedBytesAreTheEncoding := by
  intro m hm bytes rest i h
  obtain ⟨op, tail, n, rfl, hn, hlen, rfl, rfl⟩ := decode_ok_cases h
  obtain rfl : m.opcode n = op := OpcodeMap.opcode_of_mnemonic? hn
  rw [OpcodeMap.operandCount_opcode hm] at hlen ⊢
  rw [encode, Mnemonic.toInstr_mnemonic, n.operands_toInstr hlen, List.cons_append, List.take_append_drop]

/-- Settles O4: a byte outside the map selects no mnemonic, and a listed one is never refused as illegal. -/
theorem decoderRefusesExactlyTheUnlistedOpcodes : Obligations.DecoderRefusesExactlyTheUnlistedOpcodes := by
  intro m op rest
  rw [← m.mnemonic?_eq_none]
  refine ⟨fun h => ?_, fun hn => decode_of_unlisted hn rest⟩
  cases hn : m.mnemonic? op with
  | none => rfl
  | some n =>
    obtain hlen | hlen := Nat.lt_or_ge rest.length (operandCount op)
    · simp [decode_of_truncated hn hlen] at h
    · simp [decode_of_listed hn hlen] at h

/-- Settles O5: the four words are encodings under the default map, and the byte 0 is none of its values. -/
theorem sampleWordsDecode : Obligations.SampleWordsDecode := by
  have hdecode := decodeOfEncodeIsTheInstruction OpcodeMap.standard (by decide)
  refine ⟨hdecode (.ldi 0#8 5#8) [], hdecode (.add 0#8 1#8) [], hdecode (.call 1#8) [], hdecode .ret [], ?_⟩
  exact (decoderRefusesExactlyTheUnlistedOpcodes _ _ _).mpr fun n => by cases n <;> decide

end Sys2Proof
end

section
/-! PROOFS. Everything an instruction can do, said once (spec/40_sequencer.md R105): it raises a fault from its start state
or completes, and then ends in the one state that its rule gives. Facts about every instruction follow by its cases. -/

namespace Sys2Proof.Machine

/-- `i`, started in `s`, passes all its checks and ends in `t`: one constructor per outcome of an instruction's rule. -/
inductive Completes (s : State) : Instr → State → Prop where
  | ldi {r imm : Byte} {d : Fin 8} (hr : regOperand r = .ok d) : Completes s (.ldi r imm) ((s.setReg d imm).advance .ldi)
  | prn {r : Byte} {j : Fin 8} (hr : regOperand r = .ok j) : Completes s (.prn r) ((s.emit (s.reg j)).advance .prn)
  | mul {a b : Byte} {j k : Fin 8} (ha : regOperand a = .ok j) (hb : regOperand b = .ok k) :
      Completes s (.mul a b) ((s.setReg j (aluMul (s.reg j) (s.reg k))).advance .mul)
  | add {a b : Byte} {j k : Fin 8} (ha : regOperand a = .ok j) (hb : regOperand b = .ok k) :
      Completes s (.add a b) ((s.setReg j (aluAdd (s.reg j) (s.reg k))).advance .add)
  | cmp {a b : Byte} {j k : Fin 8} (ha : regOperand a = .ok j) (hb : regOperand b = .ok k) :
      Completes s (.cmp a b) ((s.setFl (compareFlags (s.reg j) (s.reg k))).advance .cmp)
  | push {r sp : Byte} {j : Fin 8} (hr : regOperand r = .ok j) (hsp : spDec s.cfg.stackPolicy s.sp = .ok sp) :
      Completes s (.push r) (((s.setSp sp).store sp (operandAroundSp s (s.setSp sp) j)).advance .push)
  | popTextOrder {r sp : Byte} {d : Fin 8} (hr : regOperand r = .ok d) (ho : s.cfg.r7Order = .textOrder)
      (hsp : spInc s.cfg.stackPolicy (s.setReg d (s.load s.sp)).sp = .ok sp) :
      Completes s (.pop r) (((s.setReg d (s.load s.sp)).setSp sp).advance .pop)
  | popOperandFirst {r sp : Byte} {d : Fin 8} (hr : regOperand r = .ok d) (ho : s.cfg.r7Order = .operandFirst)
      (hsp : spInc s.cfg.stackPolicy s.sp = .ok sp) :
      Completes s (.pop r) (((s.setSp sp).setReg d (s.load s.sp)).advance .pop)
  | call {r sp back : Byte} {j : Fin 8} (hr : regOperand r = .ok j) (hsp : spDec s.cfg.stackPolicy s.sp = .ok sp)
      (hback : returnAddress s.cfg.addrPolicy s.pc = .ok back) :
      Completes s (.call r) (((s.setSp sp).store sp back).jumpTo (operandAroundSp s (s.setSp sp) j))
  | ret {sp : Byte} (hsp : spInc s.cfg.stackPolicy s.sp = .ok sp) :
      Completes s .ret ((s.setSp sp).jumpTo (s.load s.sp))
  | jmp {r : Byte} {j : Fin 8} (hr : regOperand r = .ok j) : Completes s (.jmp r) (s.jumpTo (s.reg j))
  | jeqTaken {r : Byte} {j : Fin 8} (hr : regOperand r = .ok j) (he : equalSet s.fl = true) :
      Completes s (.jeq r) (s.jumpTo (s.reg j))
  | jeqUntaken {r : Byte} {j : Fin 8} (hr : regOperand r = .ok j) (he : equalSet s.fl = false) :
      Completes s (.jeq r) (s.advance .jeq)
  | jneTaken {r : Byte} {j : Fin 8} (hr : regOperand r = .ok j) (he : equalSet s.fl = false) :
      Completes s (.jne r) (s.jumpTo (s.reg j))
  | jneUntaken {r : Byte} {j : Fin 8} (hr : regOperand r = .ok j) (he : equalSet s.fl = true) :
      Completes s (.jne r) (s.advance .jne)
  | hlt : Completes s .hlt s.halt

/-- From `s` the instruction `i` ends in `t` by raising a fault or by completing. -/
def State.RaisesOrCompletes (s : State) (i : Instr) (t : State) : Prop := (∃ c, t = s.raise c) ∨ Completes s i t

/-- A computation in two parts raises in its first part, or does what its second part does. -/
theorem State.raisesOrCompletes_commit_bind {α : Type} {s : State} {i : Instr} {x : Attempt α} {f : α → Attempt State}
    (hok : ∀ a, x = .ok a → NextMeets (s.RaisesOrCompletes i) (s.commit (f a))) :
    NextMeets (s.RaisesOrCompletes i) (s.commit (x >>= f)) :=
  State.nextMeets_commit_bind (fun c _ => .inl ⟨c, rfl⟩) hok

/-- Every instruction raises a fault or completes. -/
theorem exec_raisesOrCompletes (i : Instr) (s : State) : NextMeets (s.RaisesOrCompletes i) (exec i s) := by
  have done {u : State} (hu : Completes s i u) : NextMeets (s.RaisesOrCompletes i) (s.commit (pure u)) :=
    State.nextMeets_commit_pure (.inr hu)
  cases i with
  | ldi => exact State.raisesOrCompletes_commit_bind fun _ hr => done (.ldi hr)
  | prn => exact State.raisesOrCompletes_commit_bind fun _ hr => done (.prn hr)
  | mul =>
    exact State.raisesOrCompletes_commit_bind fun _ ha => State.raisesOrCompletes_commit_bind fun _ hb => done (.mul ha hb)
  | add =>
    exact State.raisesOrCompletes_commit_bind fun _ ha => State.raisesOrCompletes_commit_bind fun _ hb => done (.add ha hb)
  | cmp =>
    exact State.raisesOrCompletes_commit_bind fun _ ha => State.raisesOrCompletes_commit_bind fun _ hb => done (.cmp ha hb)
  | push =>
    refine State.raisesOrCompletes_commit_bind fun _ hr => ?_
    exact State.raisesOrCompletes_commit_bind fun _ hsp => done (.push hr hsp)
  | pop =>
    refine State.raisesOrCompletes_commit_bind fun _ hr => ?_
    cases ho : s.cfg.r7Order with
    | textOrder => exact State.raisesOrCompletes_commit_bind fun _ hsp => done (.popTextOrder hr ho hsp)
    | operandFirst => exact State.raisesOrCompletes_commit_bind fun _ hsp => done (.popOperandFirst hr ho hsp)
  | call =>
    refine State.raisesOrCompletes_commit_bind fun _ hr => ?_
    refine State.raisesOrCompletes_commit_bind fun _ hsp => ?_
    exact State.raisesOrCompletes_commit_bind fun _ hback => done (.call hr hsp hback)
  | ret => exact State.raisesOrCompletes_commit_bind fun _ hsp => done (.ret hsp)
  | jmp => exact State.raisesOrCompletes_commit_bind fun _ hr => done (.jmp hr)
  | jeq =>
    refine State.raisesOrCompletes_commit_bind fun _ hr => done ?_
    split
    next he => exact .jeqTaken hr he
    next he => exact .jeqUntaken hr (Bool.eq_false_of_not_eq_true he)
  | jne =>
    refine State.raisesOrCompletes_commit_bind fun _ hr => done ?_
    split
    next he => exact .jneUntaken hr he
    next he => exact .jneTaken hr (Bool.eq_false_of_not_eq_true he)
  | hlt => exact done .hlt

/-- An instruction that completes ends in that state. -/
theorem Completes.exec_eq {s t : State} {i : Instr} (h : Completes s i t) : exec i s = .next t := by
  cases h with
  | ldi hr => simp [exec, execLdi, hr, bind, Except.bind]
  | prn hr => simp [exec, execPrn, hr, bind, Except.bind]
  | mul ha hb => simp [exec, execMul, ha, hb, bind, Except.bind]
  | add ha hb => simp [exec, execAdd, ha, hb, bind, Except.bind]
  | cmp ha hb => simp [exec, execCmp, ha, hb, bind, Except.bind]
  | push hr hsp => simp [exec, execPush, hr, hsp, bind, Except.bind]
  | popTextOrder hr ho hsp => simp [exec, execPop, hr, ho, hsp, bind, Except.bind]
  | popOperandFirst hr ho hsp => simp [exec, execPop, hr, ho, hsp, bind, Except.bind]
  | call hr hsp hback => simp [exec, execCall, hr, hsp, hback, bind, Except.bind]
  | ret hsp => simp [exec_ret, hsp, bind, Except.bind]
  | jmp hr => simp [exec, execJmp, hr, bind, Except.bind]
  | jeqTaken hr he => simp [exec, execJeq, hr, he, bind, Except.bind]
  | jeqUntaken hr he => simp [exec, execJeq, hr, he, bind, Except.bind]
  | jneTaken hr he => simp [exec, execJne, hr, he, bind, Except.bind]
  | jneUntaken hr he => simp [exec, execJne, hr, he, bind, Except.bind]
  | hlt => exact exec_hlt s

/-- A step to a next state raises a fault, of the fetch or of the instruction, or the instruction fetched completes. -/
theorem step_raises_or_completes {s t : State} (h : step s = .next t) :
    (∃ c, t = s.raise c) ∨ ∃ i, s.fetchInstr = .ok i ∧ Completes s i t := by
  obtain ⟨-, -, ⟨c, -, rfl⟩ | ⟨i, hf, h⟩⟩ := step_next_cases h
  · exact .inl ⟨c, rfl⟩
  · obtain hraise | hdone := exec_raisesOrCompletes i s t h
    · exact .inl hraise
    · exact .inr ⟨i, hf, hdone⟩

/-! What each completed instruction does to one part of the state -/

/-- No instruction writes the parameters. -/
theorem Completes.cfg_eq {s t : State} {i : Instr} (h : Completes s i t) : t.cfg = s.cfg := by
  cases h <;> rfl

/-- Only HLT writes the status, and it writes nothing else (R194). -/
theorem Completes.status_cases {s t : State} {i : Instr} (h : Completes s i t) :
    t.status = s.status ∨ i = .hlt ∧ t = s.halt := by
  cases h with
  | hlt => exact .inr ⟨rfl, rfl⟩
  | _ => exact .inl rfl

/-- Only PUSH and CALL write memory: one byte, where SP points after they have decremented it (R52). -/
theorem Completes.mem_cases {s t : State} {i : Instr} (h : Completes s i t) :
    t.mem = s.mem ∨ (∃ r, i = .push r ∨ i = .call r) ∧ spDec s.cfg.stackPolicy s.sp = .ok t.sp
      ∧ ∃ v, t.mem = s.mem.write t.sp.toNat v := by
  cases h with
  | @push _ sp j _ hsp => exact .inr ⟨⟨_, .inl rfl⟩, by simpa using hsp, operandAroundSp s (s.setSp sp) j, by simp⟩
  | @call _ _ back _ _ hsp _ => exact .inr ⟨⟨_, .inr rfl⟩, by simpa using hsp, back, by simp⟩
  | _ => exact .inl rfl

/-- The pc stays (HLT), goes to a byte (a jump), or goes to the end of the instruction (R106, R109). -/
theorem Completes.pc_cases {s t : State} {i : Instr} (h : Completes s i t) :
    t.pc = s.pc ∨ (∃ v : Byte, t.pc = v.setWidth 9) ∨ t.pc = s.pcPlus (1 + i.mnemonic.operandCount) := by
  cases h with
  | hlt => exact .inl rfl
  | call | ret | jmp | jeqTaken | jneTaken => exact .inr (.inl ⟨_, rfl⟩)
  | _ => exact .inr (.inr (by rw [State.advance_eq]; rfl))

end Sys2Proof.Machine
end

section
/-! PROOFS. The fetch and the step (spec/40_sequencer.md): what a fetch that gives an instruction has read, and the two ways
to say which instruction memory holds at pc. -/

namespace Sys2Proof.Machine

/-! A fetch that gives an instruction -/

/-- A fetch gives an instruction only from a pc inside memory, of a listed opcode, whose operand bytes it reaches. -/
theorem State.fetchInstr_ok_cases {s : State} {i : Instr} (hm : s.cfg.opcodes.legal = true) (h : s.fetchInstr = .ok i) :
    s.pc.toNat ≤ 255 ∧ ¬(s.cfg.addrPolicy = .fault ∧ 255 < s.pc.toNat + i.mnemonic.operandCount) := by
  by_cases hpc : s.pc.toNat > 255
  · simp [State.fetchInstr_of_pc_past hpc] at h
  cases hn : s.cfg.opcodes.mnemonic? (s.mem.read s.pc.toNat) with
  | none => simp [State.fetchInstr_of_unlisted hpc hn] at h
  | some n =>
    by_cases hpast : s.cfg.addrPolicy = .fault ∧ 255 < s.pc.toNat + n.operandCount
    · simp [(State.fetch_firstFault_of_operand_past hm hpc hn hpast.1 hpast.2).1] at h
    · obtain ⟨hfetch, -⟩ := State.fetch_firstFault_of_reached hm hpc hn hpast
      obtain rfl : n.toInstr (s.operandByte 1) (s.operandByte 2) = i := Except.ok.inj (hfetch.symm.trans h)
      rw [Mnemonic.toInstr_mnemonic]
      exact ⟨Nat.le_of_not_lt hpc, hpast⟩

/-! The instruction that memory holds -/

/-- From pc upward, modulo 256 and as far as ADDR_POLICY lets a fetch reach, stands the encoding of `i`. -/
structure State.HoldsAtPc (s : State) (i : Instr) : Prop where
  /-- the opcode fetch is inside memory (R101) -/
  pcInside : s.pc.toNat ≤ 255
  /-- the last operand fetch raises nothing (R103) -/
  reached : ¬(s.cfg.addrPolicy = .fault ∧ 255 < s.pc.toNat + i.mnemonic.operandCount)
  /-- the cells hold the encoding -/
  cells : ∀ k, k < (encode s.cfg.opcodes i).length → (encode s.cfg.opcodes i)[k]? = some (s.operandByte k)

/-- The cell at a pc inside memory. -/
theorem State.operandByte_zero {s : State} (h : s.pc.toNat ≤ 255) : s.operandByte 0 = s.mem.read s.pc.toNat := by
  rw [State.operandByte, Nat.add_zero, Nat.mod_eq_of_lt (by omega)]

/-- An instruction takes back its operand bytes, and ignores what its format does not read (R71). -/
theorem toInstr_eq_of_operands {i : Instr} {a b : Byte} (h0 : ∀ x, i.operands[0]? = some x → x = a)
    (h1 : ∀ x, i.operands[1]? = some x → x = b) : i.mnemonic.toInstr a b = i := by
  cases i with
  | ret | hlt => rfl
  | prn r | push r | pop r | call r | jmp r | jeq r | jne r =>
    obtain rfl := h0 r rfl
    rfl
  | ldi x y | mul x y | add x y | cmp x y =>
    obtain rfl := h0 x rfl
    obtain rfl := h1 y rfl
    rfl

/-- The instruction that the cells at pc hold is the one that the fetch gives. -/
theorem State.HoldsAtPc.fetchInstr_eq {s : State} {i : Instr} (hm : s.cfg.opcodes.legal = true) (h : s.HoldsAtPc i) :
    s.fetchInstr = .ok i := by
  obtain ⟨hpc, hreached, hcells⟩ := h
  have hop : s.cfg.opcodes.opcode i.mnemonic = s.mem.read s.pc.toNat := by
    rw [← State.operandByte_zero hpc]
    exact Option.some.inj (hcells 0 (Nat.succ_pos _))
  have hoperand (k : Nat) (x : Byte) (hx : i.operands[k]? = some x) : x = s.operandByte (k + 1) := by
    obtain ⟨hk, -⟩ := List.getElem?_eq_some_iff.mp hx
    exact Option.some.inj (hx.symm.trans (hcells (k + 1) (Nat.succ_lt_succ hk)))
  have hn : s.cfg.opcodes.mnemonic? (s.mem.read s.pc.toNat) = some i.mnemonic := by
    rw [← hop, OpcodeMap.mnemonic?_opcode hm]
  rw [(State.fetch_firstFault_of_reached hm (Nat.not_lt.mpr hpc) hn hreached).1,
    toInstr_eq_of_operands (hoperand 0) (hoperand 1)]

/-- Settles O7: cells inside 0 to 255 are reached under either policy. -/
theorem stepRunsTheInstructionStoredAtPc : Obligations.StepRunsTheInstructionStoredAtPc := by
  intro s i hs hm hfit hcells
  have hlen := length_encode s.cfg.opcodes i
  refine step_fetch_ok hs hm (State.HoldsAtPc.fetchInstr_eq hm ⟨by omega, fun ⟨_, hpast⟩ => by omega, fun k hk => ?_⟩)
  rw [hcells k hk, State.operandByte, Nat.mod_eq_of_lt (by omega)]

/-- Of the offsets 0, 1 and 2, those inside memory under Fault are the first ones. -/
theorem filter_offsets_eq_range {p : Nat} (hp : p ≤ 255) :
    [0, 1, 2].filter (fun k => decide (p + k ≤ 255)) = List.range (min 3 (256 - p)) := by
  obtain rfl | rfl | hle : p = 255 ∨ p = 254 ∨ p ≤ 253 := by omega
  · rfl
  · rfl
  · rw [show min 3 (256 - p) = 3 by omega]
    exact List.filter_eq_self.mpr fun k hk => by
      have hk : k < 3 := List.mem_range.mp hk
      exact decide_eq_true (by omega)

/-- Byte `k` of those a fetch can read: pc is inside memory, ADDR_POLICY lets the fetch reach it, and it is the cell at
pc + k, modulo 256. -/
theorem State.bytesAtPc_getElem? {s : State} {k : Nat} {b : Byte} (h : s.bytesAtPc[k]? = some b) :
    s.pc.toNat ≤ 255 ∧ ¬(s.cfg.addrPolicy = .fault ∧ 255 < s.pc.toNat + k) ∧ b = s.operandByte k := by
  unfold State.bytesAtPc at h
  split at h
  next => simp at h
  next hpc =>
    have hpc : s.pc.toNat ≤ 255 := Nat.le_of_not_lt hpc
    refine ⟨hpc, ?_⟩
    cases hp : s.cfg.addrPolicy with
    | wrap =>
      simp only [hp] at h
      match k with
      | 0 | 1 | 2 => exact ⟨by simp, (Option.some.inj h).symm⟩
    | fault =>
      simp only [hp, filter_offsets_eq_range hpc, List.getElem?_map, Option.map_eq_some_iff,
        List.getElem?_eq_some_iff, List.length_range, List.getElem_range] at h
      obtain ⟨_, ⟨hk, rfl⟩, rfl⟩ := h
      exact ⟨by omega, by rw [State.operandByte, Nat.mod_eq_of_lt (by omega)]⟩

/-- Settles O6: bytes that decode to an instruction are its encoding, and each of them is a cell that the fetch reaches. -/
theorem stepRunsTheDecodedInstruction : Obligations.StepRunsTheDecodedInstruction := by
  intro s i rest hs hm hdecode
  have hbytes := decodedBytesAreTheEncoding _ hm _ _ _ hdecode
  have hbyte (k : Nat) (hk : k < (encode s.cfg.opcodes i).length) :
      s.bytesAtPc[k]? = some ((encode s.cfg.opcodes i)[k]) := by
    rw [hbytes, List.getElem?_append_left hk, List.getElem?_eq_getElem hk]
  have hlen := length_encode s.cfg.opcodes i
  obtain ⟨hpc, hreached, -⟩ := State.bytesAtPc_getElem? (hbyte i.mnemonic.operandCount (by omega))
  refine step_fetch_ok hs hm (State.HoldsAtPc.fetchInstr_eq hm ⟨hpc, hreached, fun k hk => ?_⟩)
  rw [List.getElem?_eq_getElem hk, (State.bytesAtPc_getElem? (hbyte k hk)).2.2]

/-! The fetch's faults -/

/-- Settles O8: the opcode fetch is outside memory exactly past 255, where the invariant leaves only 256, under Fault. -/
theorem opcodeFetchPastTheTopRaisesAddressRange : Obligations.OpcodeFetchPastTheTopRaisesAddressRange := by
  refine ⟨fun s hs hm hpc => step_fetch_error hs hm (State.fetchInstr_of_pc_past hpc), fun s hinv hpc => ?_, fun s hpc => ?_⟩
  · refine ⟨Nat.le_antisymm hinv.pcInRange hpc, ?_⟩
    cases hp : s.cfg.addrPolicy with
    | fault => rfl
    | wrap => exact absurd (hinv.pcUnderWrap hp) (Nat.not_le.mpr hpc)
  · exact if_neg (Nat.not_lt.mpr hpc)

/-- Settles O9: a byte outside the map selects no mnemonic. -/
theorem unlistedOpcodeRaisesIllegalInstruction : Obligations.UnlistedOpcodeRaisesIllegalInstruction := by
  intro s hs hm hpc hop
  exact step_fetch_error hs hm
    (State.fetchInstr_of_unlisted (Nat.not_lt.mpr hpc) ((OpcodeMap.mnemonic?_eq_none _ _).mpr hop))

/-- The byte 0 carries no operand, so a legal map can give it to RET or HLT only (R74). -/
theorem opcode_ne_zero {m : OpcodeMap} (hm : m.legal = true) (hret : m.ret ≠ 0x00#8) (hhlt : m.hlt ≠ 0x00#8)
    (n : Mnemonic) : m.opcode n ≠ 0x00#8 := by
  intro h
  have hcount : n.operandCount = 0 := by
    rw [← OpcodeMap.operandCount_opcode hm, h]
    rfl
  cases n with
  | ret => exact hret h
  | hlt => exact hhlt h
  | _ => simp [Mnemonic.operandCount] at hcount

/-- Settles O55: under such a map a zero cell is an opcode outside the map, by O9. -/
theorem zeroCellRaisesIllegalInstruction : Obligations.ZeroCellRaisesIllegalInstruction := by
  intro s hs hm hret hhlt hpc hzero
  have hstep := unlistedOpcodeRaisesIllegalInstruction s hs hm hpc (hzero ▸ opcode_ne_zero hm hret hhlt)
  rwa [hzero] at hstep

/-! When there is a next state -/

/-- Every instruction ends in a next state (log 4). -/
theorem exec_eq_next (i : Instr) (s : State) : ∃ t, exec i s = .next t := by
  obtain ⟨r, hr⟩ := exec_answers_next i s
  cases r with
  | ok t => exact ⟨t, hr⟩
  | error c => exact ⟨s.raise c, hr⟩

/-- Settles O12: a running step raises the fetch's fault or runs an instruction, and both end in a next state. -/
theorem stepHasANextStateExactlyWhenRunning : Obligations.StepHasANextStateExactlyWhenRunning := by
  intro s hm
  refine ⟨fun ⟨t, h⟩ => (step_next_cases h).1, fun hs => ?_⟩
  cases hf : s.fetchInstr with
  | error c => exact ⟨_, step_fetch_error hs hm hf⟩
  | ok i =>
    rw [step_fetch_ok hs hm hf]
    exact exec_eq_next i s

/-- Settles O41: a legal map is injective, and each value's quotient by 64 is the number of its operand bytes. -/
theorem illegalOpcodeMapIsRefused : Obligations.IllegalOpcodeMapIsRefused := by
  intro s hs hbroken
  refine step_illegalMap hs (Bool.eq_false_of_not_eq_true fun hm => ?_)
  obtain ⟨n, k, hne, heq⟩ | ⟨i, hcount⟩ := hbroken
  · exact hne (((OpcodeMap.legal_iff _).mp hm).2 n k heq)
  · rw [← operandCount_eq_div, OpcodeMap.operandCount_opcode hm, i.length_operands] at hcount
    exact hcount rfl

/-! The sequential advance -/

/-- The sequential advance of an instruction under both policies (R106). -/
theorem nextSeq_toNat {pc : PcWord} {n : Mnemonic} (hpc : pc.toNat ≤ 255) :
    (nextSeq .fault pc n).toNat = pc.toNat + (1 + n.operandCount)
      ∧ (nextSeq .wrap pc n).toNat = (pc.toNat + (1 + n.operandCount)) % 256 := by
  have hle := n.operandCount_le
  simp only [nextSeq, BitVec.toNat_ofNat]
  omega

/-- Settles O15: the advance is one byte more than the format's operands, 2 or 1 for the mnemonics of each list. -/
theorem sequentialAdvanceIsTheInstructionLength : Obligations.SequentialAdvanceIsTheInstructionLength := by
  intro pc hpc
  refine ⟨fun n hn => ?_, fun n hn => ?_⟩
  · have hcount : n.operandCount = 2 := by revert hn; cases n <;> decide
    simpa [hcount] using nextSeq_toNat (n := n) hpc
  · have hcount : n.operandCount = 1 := by revert hn; cases n <;> decide
    simpa [hcount] using nextSeq_toNat (n := n) hpc

end Sys2Proof.Machine
end

section
/-! PROOFS. The rules about the whole machine and its invariant: what every step keeps, from what every completed
instruction does; then that reset, boot and every step meet State.Inv. -/

namespace Sys2Proof.Machine

/-! What every step keeps -/

/-- Settles O33: a step that does not keep FL runs a CMP. -/
theorem onlyCmpWritesTheFlags : Obligations.OnlyCmpWritesTheFlags := by
  intro s t h hne
  obtain hfl | ⟨j, k, hf, -⟩ := step_fl_cases h
  · exact absurd hfl hne
  · exact ⟨_, _, hf⟩

/-- No step changes the parameters. -/
theorem step_cfg_eq {s t : State} (h : step s = .next t) : t.cfg = s.cfg := by
  obtain ⟨c, rfl⟩ | ⟨i, -, hdone⟩ := step_raises_or_completes h
  · rfl
  · exact hdone.cfg_eq

/-- Settles O39. -/
theorem noStepChangesTheParameters : Obligations.NoStepChangesTheParameters := fun _ _ h => step_cfg_eq h

/-- A step keeps memory, or runs a PUSH or a CALL that writes one byte at the decremented SP (R52). -/
theorem step_mem_cases {s t : State} (h : step s = .next t) :
    t.mem = s.mem ∨ (∃ r, s.fetchInstr = .ok (.push r) ∨ s.fetchInstr = .ok (.call r))
      ∧ spDec s.cfg.stackPolicy s.sp = .ok t.sp ∧ ∃ v, t.mem = s.mem.write t.sp.toNat v := by
  obtain ⟨c, rfl⟩ | ⟨i, hf, hdone⟩ := step_raises_or_completes h
  · exact .inl rfl
  · obtain hmem | ⟨⟨r, rfl | rfl⟩, hwrite⟩ := hdone.mem_cases
    · exact .inl hmem
    · exact .inr ⟨⟨r, .inl hf⟩, hwrite⟩
    · exact .inr ⟨⟨r, .inr hf⟩, hwrite⟩

/-- Settles O37: the one byte written is the only one that can read differently. -/
theorem onlyPushAndCallWriteMemory : Obligations.OnlyPushAndCallWriteMemory := by
  intro s t a h hne
  obtain hmem | ⟨hinstr, hsp, v, hmem⟩ := step_mem_cases h
  · exact absurd (by rw [hmem]) hne
  · refine ⟨hinstr, Decidable.byContradiction fun ha => hne ?_, hsp⟩
    rw [hmem, Memory.read_write_other s.mem v ha]

/-- Settles O38: a running step that raises is FAULTED, and one that completes keeps RUNNING unless it is HLT's. -/
theorem onlyHltHalts : Obligations.OnlyHltHalts := by
  intro s t h ht
  obtain ⟨c, rfl⟩ | ⟨i, hf, hdone⟩ := step_raises_or_completes h
  · exact nomatch ht
  · obtain hstatus | ⟨rfl, rfl⟩ := hdone.status_cases
    · rw [hstatus, (step_next_cases h).1] at ht
      exact nomatch ht
    · exact ⟨hf, rfl⟩

/-- A step keeps the pc, jumps to a byte, or goes to the end of the instruction it fetched. -/
theorem step_pc_cases {s t : State} (h : step s = .next t) :
    t.pc = s.pc ∨ (∃ v : Byte, t.pc = v.setWidth 9)
      ∨ ∃ i, s.fetchInstr = .ok i ∧ t.pc = s.pcPlus (1 + i.mnemonic.operandCount) := by
  obtain ⟨c, rfl⟩ | ⟨i, hf, hdone⟩ := step_raises_or_completes h
  · exact .inl rfl
  · obtain hpc | hpc | hpc := hdone.pc_cases
    · exact .inl hpc
    · exact .inr (.inl hpc)
    · exact .inr (.inr ⟨i, hf, hpc⟩)

/-- A jump's target is at most 255 (R28). -/
theorem setWidth_nine_toNat_le (v : Byte) : (v.setWidth 9).toNat ≤ 255 := by
  rw [setWidth_nine_toNat]
  exact Nat.le_of_lt_succ v.isLt

/-- Under Fault the end of an instruction inside memory is not reduced (R106). -/
theorem State.pcPlus_toNat_of_fault {s : State} {len : Nat} (hp : s.cfg.addrPolicy = .fault)
    (hlen : s.pc.toNat + len < 512) : (s.pcPlus len).toNat = s.pc.toNat + len := by
  simp only [State.pcPlus, hp, BitVec.toNat_ofNat]
  exact Nat.mod_eq_of_lt hlen

/-- Under Wrap the end of an instruction is at most 255 (R106). -/
theorem State.pcPlus_toNat_le_of_wrap {s : State} (hp : s.cfg.addrPolicy = .wrap) (len : Nat) :
    (s.pcPlus len).toNat ≤ 255 := by
  simp only [State.pcPlus, hp, BitVec.toNat_ofNat]
  omega

/-- Settles O40: the old pc and a jump's target are at most 255, and so is the sequential advance under Wrap. -/
theorem pcReaches256OnlyBySequentialAdvance : Obligations.PcReaches256OnlyBySequentialAdvance := by
  intro s t hpc h ht
  obtain hkept | ⟨v, hjump⟩ | ⟨i, hf, hseq⟩ := step_pc_cases h
  · rw [hkept] at ht
    omega
  · have hle := setWidth_nine_toNat_le v
    rw [hjump] at ht
    omega
  · rw [hseq] at ht
    cases hp : s.cfg.addrPolicy with
    | wrap =>
      have hle := State.pcPlus_toNat_le_of_wrap hp (1 + i.mnemonic.operandCount)
      omega
    | fault =>
      have hcount := i.mnemonic.operandCount_le
      rw [State.pcPlus_toNat_of_fault hp (by omega)] at ht
      refine ⟨rfl, i, hf, ?_, ?_⟩
      · rw [length_encode, ht]
      · rw [length_encode, hseq]

/-! What the first fault records -/

/-- The fault that a well-formed instruction's own rule raises from a pc inside memory is one that R200 lists. -/
theorem State.recordable_of_executeFault {s : State} {i : Instr} {c : FaultCause} (hpc : s.pc.toNat ≤ 255)
    (h : s.executeFault i = some c) : c.Recordable s.cfg := by
  cases i with
  | push | pop | ret =>
    obtain ⟨hend, hc⟩ := Option.ite_none_right_eq_some.mp h
    obtain rfl := Option.some.inj hc
    exact ⟨hend.1, rfl⟩
  | call =>
    simp only [State.executeFault] at h
    split at h
    next hend =>
      obtain rfl := Option.some.inj h
      exact ⟨hend.1, rfl⟩
    next =>
      obtain ⟨hpast, hc⟩ := Option.ite_none_right_eq_some.mp h
      obtain rfl := Option.some.inj hc
      exact ⟨hpast.1, by omega⟩
  | ldi | prn | mul | add | cmp | jmp | jeq | jne | hlt => exact nomatch h

/-- An instruction's fault from a pc inside memory is one that R200 lists. -/
theorem State.recordable_of_instrFault {s : State} {i : Instr} {c : FaultCause} (hpc : s.pc.toNat ≤ 255)
    (h : s.instrFault i = some c) : c.Recordable s.cfg := by
  unfold State.instrFault at h
  split at h
  next r hr =>
    obtain rfl := Option.some.inj h
    have hbad : r.toNat > 7 := by simpa using List.find?_some hr
    exact hbad
  next => exact State.recordable_of_executeFault hpc h

/-- In a state of the invariant a pc past 255 is 256, under Fault. -/
theorem State.Inv.pc_past {s : State} (hinv : s.Inv) (hpc : 255 < s.pc.toNat) :
    s.pc.toNat = 256 ∧ s.cfg.addrPolicy = .fault :=
  opcodeFetchPastTheTopRaisesAddressRange.2.1 s hinv hpc

/-- The first fault of a state of the invariant is one that R200 lists and its parameters can raise. -/
theorem State.Inv.recordable_of_firstFault {s : State} {c : FaultCause} (hinv : s.Inv) (h : s.firstFault = some c) :
    c.Recordable s.cfg := by
  by_cases hpast : 255 < s.pc.toNat
  · obtain ⟨h256, hp⟩ := hinv.pc_past hpast
    obtain rfl : _ = c := Option.some.inj ((if_pos hpast).symm.trans h)
    exact ⟨hp, .inl h256⟩
  have hpc : ¬s.pc.toNat > 255 := hpast
  cases hn : s.cfg.opcodes.mnemonic? (s.mem.read s.pc.toNat) with
  | none =>
    obtain rfl : _ = c := by simpa only [State.firstFault, if_neg hpc, hn, Option.some.injEq] using h
    exact (OpcodeMap.mnemonic?_eq_none _ _).mp hn
  | some n =>
    by_cases hoperand : s.cfg.addrPolicy = .fault ∧ 255 < s.pc.toNat + n.operandCount
    · obtain ⟨-, hfirst⟩ := State.fetch_firstFault_of_operand_past hinv.legalMap hpc hn hoperand.1 hoperand.2
      obtain rfl : _ = c := Option.some.inj (hfirst.symm.trans h)
      exact ⟨hoperand.1, .inl rfl⟩
    · obtain ⟨-, hfirst⟩ := State.fetch_firstFault_of_reached hinv.legalMap hpc hn hoperand
      exact State.recordable_of_instrFault (Nat.le_of_not_lt hpast) (hfirst.symm.trans h)

/-- A step that ends FAULTED has raised the first fault (R206). -/
theorem step_firstFault_of_faulted {s t : State} {c : FaultCause} {fpc : PcWord} (h : step s = .next t)
    (ht : t.status = .faulted c fpc) : s.firstFault = some c := by
  obtain ⟨hs, hm, -⟩ := step_next_cases h
  obtain ⟨hraise, hnone⟩ := stepRaisesTheFirstFaultInPriorityOrder s hs hm
  cases hfault : s.firstFault with
  | none =>
    obtain ⟨u, hu, hnot⟩ := hnone hfault
    obtain rfl : t = u := Host.Outcome.next.inj (h.symm.trans hu)
    exact absurd ht (hnot c fpc)
  | some d =>
    obtain rfl : t = s.raise d := Host.Outcome.next.inj (h.symm.trans (hraise d hfault))
    obtain ⟨rfl, -⟩ : d = c ∧ s.pc = fpc := by simpa using ht
    rfl

/-! The invariant -/

/-- FL is legal when it is one of the four values (R31). -/
theorem flLegal_of_oneFlag {fl : Byte} (h : fl = 0b001#8 ∨ fl = 0b010#8 ∨ fl = 0b100#8) : flLegal fl = true := by
  obtain rfl | rfl | rfl := h <;> rfl

/-- A step keeps memory's canonical form: what it writes is inside 0 to 255. -/
theorem step_mem_wf {s t : State} (h : step s = .next t) (hmem : s.mem.wf = true) : t.mem.wf = true := by
  obtain hkept | ⟨-, -, v, hwrite⟩ := step_mem_cases h
  · rwa [hkept]
  · rw [hwrite]
    exact Memory.write_wf _ _ v t.sp.isLt hmem

/-- A step keeps FL's four values. -/
theorem step_flLegal {s t : State} (h : step s = .next t) (hfl : flLegal s.fl = true) : flLegal t.fl = true := by
  obtain hkept | hcmp := step_fl_kept_or_oneFlag h
  · rwa [hkept]
  · exact flLegal_of_oneFlag hcmp

/-- A step keeps pc's range: an instruction that was fetched under Fault ends at 256 or below. -/
theorem step_pc_le {s t : State} (h : step s = .next t) (hpc : s.pc.toNat ≤ 256) : t.pc.toNat ≤ 256 := by
  obtain hkept | ⟨v, hjump⟩ | ⟨i, hf, hseq⟩ := step_pc_cases h
  · rwa [hkept]
  · rw [hjump]
    exact Nat.le_succ_of_le (setWidth_nine_toNat_le v)
  · rw [hseq]
    cases hp : s.cfg.addrPolicy with
    | wrap => exact Nat.le_succ_of_le (State.pcPlus_toNat_le_of_wrap hp _)
    | fault =>
      obtain ⟨-, hreached⟩ := State.fetchInstr_ok_cases (step_next_cases h).2.1 hf
      have hfit : s.pc.toNat + i.mnemonic.operandCount ≤ 255 := Nat.le_of_not_lt fun hpast => hreached ⟨hp, hpast⟩
      rw [State.pcPlus_toNat_of_fault hp (by omega)]
      omega

/-- Under Wrap a step keeps pc inside memory. -/
theorem step_pc_le_of_wrap {s t : State} (h : step s = .next t) (hp : s.cfg.addrPolicy = .wrap)
    (hpc : s.pc.toNat ≤ 255) : t.pc.toNat ≤ 255 := by
  obtain hkept | ⟨v, hjump⟩ | ⟨i, -, hseq⟩ := step_pc_cases h
  · rwa [hkept]
  · rw [hjump]
    exact setWidth_nine_toNat_le v
  · rw [hseq]
    exact State.pcPlus_toNat_le_of_wrap hp _

/-- Settles O42: field by field, from what a step does to that part of the state. -/
theorem stepKeepsTheInvariant : Obligations.StepKeepsTheInvariant := by
  intro s t hinv h
  have hcfg := step_cfg_eq h
  refine
    { legalMap := hcfg ▸ hinv.legalMap
      memCanonical := step_mem_wf h hinv.memCanonical
      flagsLegal := step_flLegal h hinv.flagsLegal
      pcInRange := step_pc_le h hinv.pcInRange
      pcUnderWrap := fun hp => ?_
      faultRecord := fun c fpc ht => ?_ }
  · rw [hcfg] at hp
    exact step_pc_le_of_wrap h hp (hinv.pcUnderWrap hp)
  · have hrecord := hinv.recordable_of_firstFault (step_firstFault_of_faulted h ht)
    obtain rfl := faultingStepChangesOnlyTheStatus s t c fpc h ht
    obtain rfl : s.pc = fpc := by simpa using ht
    exact ⟨rfl, hrecord⟩

/-- The reset state with any canonical memory meets the invariant. -/
theorem State.inv_resetWith_mem {cfg : Config} {mem : Memory} (draw : Vector Byte 7) (hm : cfg.opcodes.legal = true)
    (hmem : mem.wf = true) : State.Inv { State.resetWith cfg draw with mem := mem } where
  legalMap := hm
  memCanonical := hmem
  flagsLegal := rfl
  pcInRange := Nat.zero_le _
  pcUnderWrap := fun _ => Nat.zero_le _
  faultRecord := nofun

/-- Settles O43: reset's memory is empty, which is canonical. -/
theorem resetMeetsTheInvariant : Obligations.ResetMeetsTheInvariant :=
  ⟨fun _ draw hm => State.inv_resetWith_mem draw hm rfl, State.inv_resetWith_mem standardDraw (by decide) rfl⟩

/-- The boot answers a state only for a well-formed listing, and then places its bytes in the reset state's memory. -/
theorem boot_next_cases {cfg : Config} {draw : Vector Byte 7} {listing : List Nat} {s : State}
    (h : boot cfg draw listing = .next s) :
    listing.length ≤ 256
      ∧ s = { State.resetWith cfg draw with mem := Memory.place [] 0 (listing.map (BitVec.ofNat 8)) } := by
  unfold boot at h
  split at h
  next hwf =>
    obtain ⟨hlen, -⟩ := Bool.and_eq_true_iff.mp hwf
    exact ⟨of_decide_eq_true hlen, (Host.Outcome.next.inj h).symm⟩
  next => exact nomatch h

/-- Settles O44: placing at most 256 bytes from address 0 gives a canonical memory. -/
theorem bootMeetsTheInvariant : Obligations.BootMeetsTheInvariant := by
  intro cfg draw listing s hm h
  obtain ⟨hlen, rfl⟩ := boot_next_cases h
  exact State.inv_resetWith_mem draw hm (Memory.place_wf _ _ 0 (by simpa using hlen) rfl)

/-- Settles O47: a listing that is too long fails the first check of the boot, and one with too large a value the second. -/
theorem illFormedListingStartsNoRun : Obligations.IllFormedListingStartsNoRun := by
  intro cfg draw listing hbad
  have hwf : listingWellFormed listing = false := by
    refine Bool.and_eq_false_iff.mpr ?_
    obtain hlen | ⟨v, hv, hlarge⟩ := hbad
    · exact .inl (decide_eq_false (Nat.not_le.mpr hlen))
    · exact .inr (List.all_eq_false.mpr ⟨v, hv, by simpa using hlarge⟩)
  simp [boot, hwf]

end Sys2Proof.Machine
end

section
/-! PROOFS. The frames of the instructions (spec/40_sequencer.md R111), and the two flags that no instruction reads
(spec/10_state.md R32). -/

namespace Sys2Proof.Machine

/-! Frames -/

/-- A completed LDI, ADD or MUL with destination `d` writes one register and goes on. -/
theorem exec_registerWriter {i : Instr} {d : Fin 8} {s t : State}
    (hi : ∃ x : Byte, i = .ldi (regByte d) x ∨ i = .add (regByte d) x ∨ i = .mul (regByte d) x)
    (hwf : i.wellFormed = true) (h : exec i s = .next t) : ∃ v n, t = (s.setReg d v).advance n := by
  obtain ⟨x, rfl | rfl | rfl⟩ := hi
  · exact ⟨_, _, (Host.Outcome.next.inj ((exec_ldi_regByte d x s).symm.trans h)).symm⟩
  · obtain ⟨k, rfl⟩ := registerByteLegal_cases (Bool.and_eq_true_iff.mp hwf).2
    exact ⟨_, _, (Host.Outcome.next.inj ((exec_add_regByte d k s).symm.trans h)).symm⟩
  · obtain ⟨k, rfl⟩ := registerByteLegal_cases (Bool.and_eq_true_iff.mp hwf).2
    exact ⟨_, _, (Host.Outcome.next.inj ((exec_mul_regByte d k s).symm.trans h)).symm⟩

/-- Settles O29: each of the three writes its destination and the pc. -/
theorem registerWritersFrame : Obligations.RegisterWritersFrame := by
  intro i d s t hi hwf h
  obtain ⟨v, n, rfl⟩ := exec_registerWriter hi hwf h
  exact ⟨fun q hq => s.setReg_reg_other hq v, rfl, rfl, rfl, rfl, fun _ => rfl⟩

/-- The six forms that write no register and no memory (R111). -/
def Instr.WritesNoRegisterNoMemory (i : Instr) : Prop :=
  i = .hlt ∨ ∃ r x : Byte, i = .prn r ∨ i = .cmp r x ∨ i = .jmp r ∨ i = .jeq r ∨ i = .jne r

/-- A well-formed instruction of the six raises nothing: none has a fault of its own beside the register check. -/
theorem exec_completes_of_writesNothing {i : Instr} {s t : State} (hi : Instr.WritesNoRegisterNoMemory i)
    (hwf : i.wellFormed = true) (h : exec i s = .next t) : Completes s i t := by
  obtain ⟨u, hdone⟩ : ∃ u, Completes s i u := by
    obtain rfl | ⟨r, x, rfl | rfl | rfl | rfl | rfl⟩ := hi
    · exact ⟨_, .hlt⟩
    · obtain ⟨j, rfl⟩ := registerByteLegal_cases hwf
      exact ⟨_, .prn (regOperand_regByte j)⟩
    · obtain ⟨hr, hx⟩ := Bool.and_eq_true_iff.mp hwf
      obtain ⟨j, rfl⟩ := registerByteLegal_cases hr
      obtain ⟨k, rfl⟩ := registerByteLegal_cases hx
      exact ⟨_, .cmp (regOperand_regByte j) (regOperand_regByte k)⟩
    · obtain ⟨j, rfl⟩ := registerByteLegal_cases hwf
      exact ⟨_, .jmp (regOperand_regByte j)⟩
    · obtain ⟨j, rfl⟩ := registerByteLegal_cases hwf
      cases he : equalSet s.fl with
      | true => exact ⟨_, .jeqTaken (regOperand_regByte j) he⟩
      | false => exact ⟨_, .jeqUntaken (regOperand_regByte j) he⟩
    · obtain ⟨j, rfl⟩ := registerByteLegal_cases hwf
      cases he : equalSet s.fl with
      | true => exact ⟨_, .jneUntaken (regOperand_regByte j) he⟩
      | false => exact ⟨_, .jneTaken (regOperand_regByte j) he⟩
  obtain rfl : u = t := Host.Outcome.next.inj (hdone.exec_eq.symm.trans h)
  exact hdone

/-- When one of the six completes, every register and every byte of memory is as before. -/
theorem Completes.regs_mem_of_writesNothing {i : Instr} {s t : State} (hi : Instr.WritesNoRegisterNoMemory i)
    (h : Completes s i t) : t.regs = s.regs ∧ t.mem = s.mem := by
  obtain rfl | ⟨r, x, rfl | rfl | rfl | rfl | rfl⟩ := hi
  all_goals cases h <;> exact ⟨rfl, rfl⟩

/-- Settles O30: the six complete; then only CMP writes FL, only PRN out and only HLT the status. -/
theorem noRegisterNoMemoryFrame : Obligations.NoRegisterNoMemoryFrame := by
  intro i s t hi hwf h
  have hdone := exec_completes_of_writesNothing hi hwf h
  obtain ⟨hregs, hmem⟩ := hdone.regs_mem_of_writesNothing hi
  refine ⟨fun q => by rw [State.reg, hregs, State.reg], fun a => by rw [hmem], hdone.cfg_eq, fun hne => ?_,
    fun hne => ?_, fun hne => ?_⟩
  · exact exec_fl_of_ne_cmp hne t h
  · exact exec_out_of_ne_prn (fun j => hne (regByte j)) t h
  · exact hdone.status_cases.resolve_right fun hhlt => hne hhlt.1

/-- What a stack writer keeps when it completes: all but SP, the pc and the cell at the decremented SP. -/
theorem stackWriter_frame {s t : State} {sp v : Byte} (hsp : spDec s.cfg.stackPolicy s.sp = .ok sp)
    (ht : ∃ pc, t = ((s.setSp sp).store sp v).setPc pc) :
    (∀ q, q ≠ 7 → t.reg q = s.reg q) ∧ t.fl = s.fl ∧ t.status = s.status ∧ t.out = s.out ∧ t.cfg = s.cfg
      ∧ ∀ a : Byte, spDec s.cfg.stackPolicy s.sp = .ok a → ∀ b : Nat, b ≠ a.toNat → t.mem.read b = s.mem.read b := by
  obtain ⟨pc, rfl⟩ := ht
  refine ⟨fun q hq => s.setSp_reg_other hq sp, rfl, rfl, rfl, rfl, fun a ha b hb => ?_⟩
  obtain rfl : sp = a := Except.ok.inj (hsp.symm.trans ha)
  exact Memory.read_write_other s.mem v hb

/-- Settles O31: a PUSH or a CALL that completes has stored one byte at the decremented SP. -/
theorem stackWritersFrame : Obligations.StackWritersFrame := by
  intro i s t hi h
  refine (exec_raisesOrCompletes i s t h).imp_right fun hdone => ?_
  obtain ⟨r, rfl | rfl⟩ := hi
  · cases hdone with
    | push _ hsp => exact stackWriter_frame hsp ⟨_, rfl⟩
  · cases hdone with
    | call _ hsp _ => exact stackWriter_frame hsp ⟨_, rfl⟩

/-- Settles O32: a POP that completes has written its destination and SP, in either order, and a RET has written SP. -/
theorem stackReadersFrame : Obligations.StackReadersFrame := by
  intro i s t d hi h
  refine (exec_raisesOrCompletes i s t h).imp_right fun hdone => ?_
  obtain rfl | ⟨rfl, -⟩ := hi
  · cases hdone with
    | popTextOrder hr _ _ =>
      obtain rfl : d = _ := by simpa using hr
      exact ⟨fun q h7 hd => by simp [h7, hd], rfl, rfl, rfl, rfl, fun _ => rfl⟩
    | popOperandFirst hr _ _ =>
      obtain rfl : d = _ := by simpa using hr
      exact ⟨fun q h7 hd => by simp [h7, hd], rfl, rfl, rfl, rfl, fun _ => rfl⟩
  · cases hdone with
    | ret _ => exact ⟨fun q h7 _ => s.setSp_reg_other h7 _, rfl, rfl, rfl, rfl, fun _ => rfl⟩

/-! The flags that nothing reads -/

/-- Two outcomes agree but for FL: where the first is a next state, so is the second, and only FL may differ. -/
def AgreeButFl (o o' : Host.Outcome State Fault Refusal) : Prop :=
  ∀ t, o = .next t → ∃ u : State, o' = .next u ∧ { u with fl := t.fl } = t

/-- Two next states that differ only in FL. -/
theorem agreeButFl_next {t u : State} (h : { u with fl := t.fl } = t) : AgreeButFl (.next t) (.next u) := by
  intro t' ht
  obtain rfl := Host.Outcome.next.inj ht
  exact ⟨u, rfl, h⟩

/-- Two computations that share their first part agree where their second parts do: a fault keeps FL (R203). -/
theorem State.agreeButFl_commit_bind {α : Type} {s : State} {f : Byte} {x : Attempt α} {g g' : α → Attempt State}
    (hok : ∀ a, AgreeButFl (s.commit (g a)) ((s.setFl f).commit (g' a))) :
    AgreeButFl (s.commit (x >>= g)) ((s.setFl f).commit (x >>= g')) := by
  cases x with
  | ok a => exact hok a
  | error c => exact agreeButFl_next (t := s.raise c) (u := (s.setFl f).raise c) rfl

/-- No instruction reads more of FL than E (R32, R193). -/
theorem exec_agreeButFl {s : State} {f : Byte} (he : equalSet f = equalSet s.fl) (i : Instr) :
    AgreeButFl (exec i s) (exec i (s.setFl f)) := by
  cases i with
  | ldi | prn | jmp | ret => exact State.agreeButFl_commit_bind fun _ => agreeButFl_next rfl
  | mul | add | cmp | push =>
    exact State.agreeButFl_commit_bind fun _ => State.agreeButFl_commit_bind fun _ => agreeButFl_next rfl
  | call =>
    refine State.agreeButFl_commit_bind fun _ => State.agreeButFl_commit_bind fun _ => ?_
    exact State.agreeButFl_commit_bind fun _ => agreeButFl_next rfl
  | pop =>
    refine State.agreeButFl_commit_bind fun _ => ?_
    simp only [State.setFl_cfg]
    cases s.cfg.r7Order with
    | textOrder | operandFirst => exact State.agreeButFl_commit_bind fun _ => agreeButFl_next rfl
  | jeq | jne =>
    refine State.agreeButFl_commit_bind fun _ => agreeButFl_next ?_
    rw [State.setFl_fl, he]
    cases equalSet s.fl with
    | true | false => rfl
  | hlt => exact agreeButFl_next rfl

/-- The operand fetch does not read FL. -/
theorem State.fetchOperands_setFl (s : State) (f : Byte) (n : Nat) : (s.setFl f).fetchOperands n = s.fetchOperands n := by
  induction n with
  | zero => rfl
  | succ n ih =>
    rw [State.fetchOperands, State.fetchOperands, ih]
    rfl

/-- The fetch does not read FL. -/
theorem State.fetchInstr_setFl (s : State) (f : Byte) : (s.setFl f).fetchInstr = s.fetchInstr := by
  simp only [State.fetchInstr, State.fetchOperands_setFl]
  rfl

/-- Settles O34: the fetch reads no flag, and the instruction fetched only E. -/
theorem lessAndGreaterAreUnobservable : Obligations.LessAndGreaterAreUnobservable := by
  intro s t f he h
  show ∃ u : State, step (s.setFl f) = .next u ∧ _
  obtain ⟨hs, hm, ⟨c, hf, rfl⟩ | ⟨i, hf, h⟩⟩ := step_next_cases h
  · exact ⟨_, step_fetch_error (s := s.setFl f) hs hm ((s.fetchInstr_setFl f).trans hf), rfl⟩
  · rw [step_fetch_ok (s := s.setFl f) hs hm ((s.fetchInstr_setFl f).trans hf)]
    exact exec_agreeButFl he i t h

end Sys2Proof.Machine
end

section
/-! PROOFS. The stack's laws: a RET after a CALL (spec/44_control.md R184), the fetch of a pushed byte (spec/20_memory.md
R63), and N pushes undone by N pops (spec/43_stack.md R168). -/

namespace Sys2Proof.Machine

/-! SP_dec undone, and what a completed push has stored -/

/-- SP_inc undoes SP_dec, under either policy (R166). -/
theorem spInc_of_spDec {p : StackPolicy} {v w : Byte} (h : spDec p v = .ok w) : spInc p w = .ok v := by
  obtain ⟨hdec, hroom⟩ | ⟨hdec, -⟩ := spDec_cases p v
  · obtain rfl : v - 1#8 = w := Except.ok.inj (hdec.symm.trans h)
    have hinc : ¬(p = .fault ∧ v - 1#8 = 255#8) := fun ⟨hp, hend⟩ => hroom ⟨hp, by bv_omega⟩
    rw [spInc_of_room hinc, BitVec.sub_add_cancel]
  · rw [hdec] at h
    exact nomatch h

/-- An instruction that ends in RUNNING has raised nothing: it has completed. -/
theorem Completes.of_running {i : Instr} {s t : State} (h : exec i s = .next t) (ht : t.status = .running) :
    Completes s i t := by
  refine (exec_raisesOrCompletes i s t h).resolve_left ?_
  rintro ⟨c, rfl⟩
  exact nomatch ht

/-- A byte stored in a canonical memory is in its cell. -/
theorem State.read_store_same {s : State} (hmem : s.mem.wf = true) (a v : Byte) : (s.store a v).mem.read a.toNat = v :=
  Memory.read_write_same s.mem a.toNat v hmem

/-- The return address as a pc is the CALL's address + 2, as ADDR_POLICY keeps it in pc (R180). -/
theorem setWidth_returnAddress {s : State} {back : Byte} (h : returnAddress s.cfg.addrPolicy s.pc = .ok back) :
    back.setWidth 9 = s.pcPlus 2 := by
  obtain ⟨hback, hreached⟩ | ⟨hback, -⟩ := returnAddress_cases s.cfg.addrPolicy s.pc
  · obtain rfl := Except.ok.inj (hback.symm.trans h)
    apply BitVec.eq_of_toNat_eq
    rw [setWidth_nine_toNat]
    cases hp : s.cfg.addrPolicy with
    | wrap =>
      simp only [State.pcPlus, hp, BitVec.toNat_ofNat]
      omega
    | fault =>
      have hfit : s.pc.toNat + 2 ≤ 255 := Nat.le_of_not_lt fun hpast => hreached ⟨hp, hpast⟩
      rw [State.pcPlus_toNat_of_fault hp (by omega), BitVec.toNat_ofNat]
      omega
  · rw [hback] at h
    exact nomatch h

/-- Settles O52: the CALL's SP_dec is undone by the RET's SP_inc, and the byte at SP is the return address. -/
theorem retAfterCallResumesAfterTheCall : Obligations.RetAfterCallResumesAfterTheCall := by
  intro r s t u _ hmem h ht hcfg husp hcell
  cases Completes.of_running h ht with
  | @call _ sp back _ _ hsp hback =>
    have husp : u.sp = sp := by simpa using husp
    have hload : u.load u.sp = back := by
      rw [State.load, husp]
      simpa [Memory.read_write_same _ _ _ hmem] using hcell
    have hinc : spInc u.cfg.stackPolicy u.sp = .ok s.sp := by
      rw [husp, hcfg]
      exact spInc_of_spDec hsp
    refine ⟨_, (Completes.ret hinc).exec_eq, ?_, u.setSp_sp s.sp, rfl⟩
    rw [hload]
    exact setWidth_returnAddress hback

/-- A PUSH of a register other than R7 that completes moves SP down, stores the register there and goes on, under either
order (R160). -/
theorem Completes.push_of_ne_seven {i : Fin 8} {s t : State} (hi : i ≠ 7) (h : Completes s (.push (regByte i)) t) :
    ∃ sp, spDec s.cfg.stackPolicy s.sp = .ok sp ∧ t = ((s.setSp sp).store sp (s.reg i)).advance .push := by
  cases h with
  | push hr hsp =>
    obtain rfl : i = _ := by simpa using hr
    exact ⟨_, hsp, by rw [operandAroundSp_setSp, if_neg fun h7 => hi h7.1]⟩

/-- Settles O53: the opcode fetch at the new SP reads the cell that the PUSH wrote. -/
theorem fetchSeesTheByteAPushStored : Obligations.FetchSeesTheByteAPushStored := by
  intro i s t u hmem hi _ h ht humem hupc
  obtain ⟨sp, -, rfl⟩ := (Completes.of_running h ht).push_of_ne_seven hi
  have hpc : u.pc.toNat = sp.toNat := by
    rw [hupc, setWidth_nine_toNat]
    simp
  have hfetch := opcodeFetchPastTheTopRaisesAddressRange.2.2 u (by rw [hpc]; exact Nat.le_of_lt_succ sp.isLt)
  rw [hfetch, hpc, humem]
  exact congrArg Except.ok ((s.setSp sp).read_store_same hmem sp (s.reg i))

/-! Sequences of instructions -/

/-- An instruction that keeps the status goes first; the others go on from its state. -/
theorem execAll_cons {i : Instr} {is : List Instr} {s t : State} (h : exec i s = .next t) (ht : t.status = s.status) :
    execAll (i :: is) s = execAll is t := by
  simp only [execAll, h, if_pos ht]

/-- Instructions one after another, in two parts. -/
theorem execAll_append (is js : List Instr) (s : State) : execAll (is ++ js) s = (execAll is s).bind (execAll js) := by
  induction is generalizing s with
  | nil => rfl
  | cons i is ih =>
    obtain ⟨t, h⟩ := exec_eq_next i s
    by_cases ht : t.status = s.status
    · rw [List.cons_append, execAll_cons h ht, execAll_cons h ht, ih]
    · simp [execAll, h, ht]

/-! N pushes, then N pops -/

/-- The two register writes of a POP commute when its destination is not R7. -/
theorem State.setSp_setReg_comm {d : Fin 8} (hd : d ≠ 7) (s : State) (sp v : Byte) :
    (s.setSp sp).setReg d v = (s.setReg d v).setSp sp := by
  have hregs : (s.regs.set 7 sp).set d v = (s.regs.set d v).set 7 sp :=
    Vector.set_comm sp v fun h => hd (Fin.ext h.symm)
  simp only [State.setSp, State.setReg]
  congr 1

/-- The state after a PUSH of a register other than R7 that raises nothing (R160). -/
def State.pushed (s : State) (r : Fin 8) : State :=
  ((s.setSp (s.sp - 1#8)).store (s.sp - 1#8) (s.reg r)).advance .push

/-- The state after a POP to a register other than R7 that raises nothing (R163). -/
def State.popped (s : State) (r : Fin 8) : State := ((s.setReg r (s.load s.sp)).setSp (s.sp + 1#8)).advance .pop

/-- A PUSH of a register other than R7, under either order, with room on the stack. -/
theorem exec_push_of_ne_seven {r : Fin 8} {s : State} (hr : r ≠ 7) (hroom : ¬(s.cfg.stackPolicy = .fault ∧ s.sp = 0#8)) :
    exec (.push (regByte r)) s = .next (s.pushed r) := by
  rw [exec_push_regByte_of_room r hroom, if_neg fun h7 => hr h7.1]
  rfl

/-- A POP to a register other than R7, under either order, where SP can move up. -/
theorem exec_pop_of_ne_seven {r : Fin 8} {s : State} (hr : r ≠ 7) (hroom : ¬(s.cfg.stackPolicy = .fault ∧ s.sp = 255#8)) :
    exec (.pop (regByte r)) s = .next (s.popped r) := by
  cases ho : s.cfg.r7Order with
  | textOrder =>
    rw [exec_pop_regByte_of_textOrder r ho, if_neg hr, State.commit_spInc_bind_of_room hroom]
    rfl
  | operandFirst =>
    rw [exec_pop_regByte_of_operandFirst r ho, State.commit_spInc_bind_of_room hroom, State.setSp_setReg_comm hr]
    rfl

@[simp] theorem State.pushed_sp (s : State) (r : Fin 8) : (s.pushed r).sp = s.sp - 1#8 := by simp [State.pushed]

@[simp] theorem State.pushed_reg {q : Fin 8} (hq : q ≠ 7) (s : State) (r : Fin 8) : (s.pushed r).reg q = s.reg q := by
  simp [State.pushed, hq]

/-- SP has room for `n` pushes: they do not underflow under Fault, and they do not meet under Wrap (R168, log 18). -/
def State.HasRoom (s : State) (n : Nat) : Prop := n ≤ 256 ∧ (s.cfg.stackPolicy = .fault → n ≤ s.sp.toNat)

/-- With room for one more push SP is not at its lower end under Fault. -/
theorem State.HasRoom.not_underflow {s : State} {n : Nat} (h : s.HasRoom (n + 1)) :
    ¬(s.cfg.stackPolicy = .fault ∧ s.sp = 0#8) := by
  rintro ⟨hp, hzero⟩
  have hle := h.2 hp
  rw [hzero] at hle
  exact absurd hle (Nat.not_succ_le_zero n)

/-- A push takes the room of one. -/
theorem State.HasRoom.pushed {s : State} {n : Nat} (h : s.HasRoom (n + 1)) (r : Fin 8) : (s.pushed r).HasRoom n := by
  refine ⟨Nat.le_of_succ_le h.1, fun hp => ?_⟩
  have hle := h.2 hp
  rw [State.pushed_sp]
  bv_omega

/-- The address of push number `k` from `s`: `k + 1` below SP. -/
def State.pushAddress (s : State) (k : Nat) : Byte := s.sp - BitVec.ofNat 8 (k + 1)

/-- After a push, push number `k` goes where push number `k + 1` would have gone before it. -/
theorem State.pushAddress_pushed (s : State) (r : Fin 8) (k : Nat) :
    (s.pushed r).pushAddress k = s.pushAddress (k + 1) := by
  rw [State.pushAddress, State.pushAddress, State.pushed_sp]
  bv_omega

/-- Within 256 pushes no later push meets the first. -/
theorem State.pushAddress_zero_ne {s : State} {k : Nat} (h : k + 1 < 256) : s.pushAddress 0 ≠ s.pushAddress (k + 1) := by
  unfold State.pushAddress
  bv_omega

/-- From `s` to `u` the registers `rs` were pushed and popped again: only the pc and the cells below SP have changed, and
those cells hold what was pushed. -/
structure PushedAndPopped (rs : List (Fin 8)) (s u : State) : Prop where
  /-- no parameter changes -/
  cfg : u.cfg = s.cfg
  /-- no fault is raised -/
  status : u.status = s.status
  /-- every register, SP among them, has its value back -/
  regs : ∀ q, u.reg q = s.reg q
  /-- cell `k + 1` below SP holds the value of push number `k` -/
  pushed : ∀ (k : Nat) (h : k < rs.length), u.mem.read (s.pushAddress k).toNat = s.reg rs[k]
  /-- every other cell is as before -/
  others : ∀ a : Byte, (∀ k, k < rs.length → a ≠ s.pushAddress k) → u.mem.read a.toNat = s.mem.read a.toNat

/-- A POP after the inner pushes and pops gives back the register that a PUSH before them has stored. -/
theorem PushedAndPopped.cons {r : Fin 8} {rs : List (Fin 8)} {s u : State} (hrs : ∀ q ∈ r :: rs, q ≠ 7)
    (hlen : (r :: rs).length ≤ 256) (hmem : s.mem.wf = true) (h : PushedAndPopped rs (s.pushed r) u) :
    PushedAndPopped (r :: rs) s (u.popped r) := by
  have husp : u.sp = s.pushAddress 0 := (h.regs 7).trans (s.pushed_sp r)
  have hcell : u.mem.read (s.pushAddress 0).toNat = s.reg r := by
    rw [h.others]
    · exact (s.setSp (s.sp - 1#8)).read_store_same hmem (s.sp - 1#8) (s.reg r)
    · intro k hk
      rw [State.pushAddress_pushed]
      exact State.pushAddress_zero_ne (Nat.lt_of_lt_of_le (Nat.succ_lt_succ hk) hlen)
  refine { cfg := h.cfg, status := h.status, regs := fun q => ?_, pushed := fun k hk => ?_, others := fun a ha => ?_ }
  · by_cases h7 : q = 7
    · subst h7
      calc (u.popped r).reg 7 = u.sp + 1#8 := State.setSp_reg_seven _ _
        _ = s.sp := by rw [husp]; exact BitVec.sub_add_cancel s.sp 1#8
    · by_cases hqr : q = r
      · subst hqr
        simpa [State.popped, h7, State.load, husp] using hcell
      · simpa [State.popped, h7, hqr] using h.regs q
  · cases k with
    | zero => exact hcell
    | succ k =>
      have hk : k < rs.length := Nat.lt_of_succ_lt_succ hk
      have hne : rs[k] ≠ 7 := hrs _ (List.mem_cons_of_mem r (List.getElem_mem hk))
      have hpushed := h.pushed k hk
      rwa [State.pushAddress_pushed, State.pushed_reg hne] at hpushed
  · calc u.mem.read a.toNat = (s.pushed r).mem.read a.toNat := by
          refine h.others a fun k hk => ?_
          rw [State.pushAddress_pushed]
          exact ha (k + 1) (Nat.succ_lt_succ hk)
      _ = s.mem.read a.toNat :=
          Memory.read_write_other s.mem _ fun heq => ha 0 (Nat.succ_pos _) (BitVec.eq_of_toNat_eq heq)

/-- The pushes and then the pops of the reversed list run without a fault, innermost last pushed and first popped. -/
theorem exists_pushedAndPopped {rs : List (Fin 8)} {s : State} (hrs : ∀ r ∈ rs, r ≠ 7) (hroom : s.HasRoom rs.length)
    (hmem : s.mem.wf = true) :
    ∃ t u : State, execAll (rs.map fun r => .push (regByte r)) s = some t
      ∧ execAll (rs.reverse.map fun r => .pop (regByte r)) t = some u ∧ PushedAndPopped rs s u := by
  induction rs generalizing s with
  | nil => exact ⟨s, s, rfl, rfl, rfl, rfl, fun _ => rfl, fun k h => absurd h (Nat.not_lt_zero k), fun _ _ => rfl⟩
  | cons r rs ih =>
    have hr : r ≠ 7 := hrs r List.mem_cons_self
    obtain ⟨t, u, hpushes, hpops, h⟩ :=
      ih (fun q hq => hrs q (List.mem_cons_of_mem r hq)) (hroom.pushed r) ((s.setSp _).store_wf _ _ hmem)
    have hpush := exec_push_of_ne_seven hr hroom.not_underflow
    have hpop : exec (.pop (regByte r)) u = .next (u.popped r) := by
      refine exec_pop_of_ne_seven hr fun ⟨hp, hend⟩ => hroom.not_underflow ⟨h.cfg ▸ hp, ?_⟩
      have husp : u.sp = s.sp - 1#8 := (h.regs 7).trans (s.pushed_sp r)
      bv_omega
    refine ⟨t, u.popped r, ?_, ?_, h.cons hrs hroom.1 hmem⟩
    · rw [List.map_cons, execAll_cons hpush rfl, hpushes]
    · rw [List.reverse_cons, List.map_append, execAll_append, hpops]
      exact execAll_cons hpop rfl

/-- Settles O51: by the induction over the list, whose bound is the room on the stack. -/
theorem pushesThenPopsRestoreTheRegisters : Obligations.PushesThenPopsRestoreTheRegisters := by
  intro rs s _ hmem hrs hle
  have hroom : s.HasRoom rs.length := by
    have hsp := s.sp.isLt
    cases hp : s.cfg.stackPolicy with
    | wrap => exact ⟨by simpa only [hp] using hle, by simp [hp]⟩
    | fault =>
      simp only [hp] at hle
      exact ⟨by omega, fun _ => hle⟩
  obtain ⟨t, u, hpushes, hpops, h⟩ := exists_pushedAndPopped hrs hroom hmem
  exact ⟨t, u, hpushes, hpops, h.regs, h.pushed⟩

end Sys2Proof.Machine
end

section
/-! PROOFS. The step input and the outputs (spec/10_state.md R40), and the run that never ends (spec/44_control.md R186). -/

namespace Sys2Proof.Machine

/-! The step input -/

/-- With `rst` released the step input does nothing in HALTED and in FAULTED (R40). -/
theorem transact_step_of_not_running {p : PortState} (hrst : p.rst = false) (hs : p.core.status ≠ .running) :
    transact p .step = .next p := by
  cases hstatus : p.core.status with
  | running => exact absurd hstatus hs
  | halted | faulted => simp [transact, hrst, hstatus]

/-- With `rst` released the step input performs the core's step in RUNNING (R40). -/
theorem transact_step_of_next {p : PortState} {t : State} (hrst : p.rst = false) (h : step p.core = .next t) :
    transact p .step = .next { p with core := t } := by
  simp [transact, hrst, (step_next_cases h).1, h]

/-! The outputs -/

/-- A value appended to out is pulsed out. -/
theorem outPulse_of_append {s t : State} {v : Byte} (h : t.out = s.out ++ [v]) : outPulse s t = some v := by
  rw [outPulse, h, List.drop_left]
  rfl

/-- Where out is kept nothing is pulsed out. -/
theorem outPulse_of_kept {s t : State} (h : t.out = s.out) : outPulse s t = none := by
  rw [outPulse, h, List.drop_length]
  rfl

/-- The outputs in RUNNING. -/
theorem State.outputs_of_running {s : State} (h : s.status = .running) :
    s.outputs = { halted := false, faulted := false, faultCode := 0#3, faultPc := none } := by
  simp only [State.outputs, h]

/-- The outputs in HALTED. -/
theorem State.outputs_of_halted {s : State} (h : s.status = .halted) :
    s.outputs = { halted := true, faulted := false, faultCode := 0#3, faultPc := none } := by
  simp only [State.outputs, h]

/-- The outputs in FAULTED. -/
theorem State.outputs_of_faulted {s : State} {c : FaultCause} {fpc : PcWord} (h : s.status = .faulted c fpc) :
    s.outputs = { halted := false, faulted := true, faultCode := c.code, faultPc := some fpc } := by
  simp only [State.outputs, h]

/-- The code of a faulted state is its cause's. -/
theorem State.faultCode_of_faulted {s : State} {c : FaultCause} {fpc : PcWord} (h : s.status = .faulted c fpc) :
    s.outputs.faultCode = c.code := by
  rw [State.outputs_of_faulted h]

/-- `halted` shows HALTED. -/
theorem State.outputs_halted_iff (s : State) : s.outputs.halted = true ↔ s.status = .halted := by
  cases h : s.status with
  | running => simp [State.outputs_of_running h]
  | halted => simp [State.outputs_of_halted h]
  | faulted => simp [State.outputs_of_faulted h]

/-- `faulted` shows FAULTED. -/
theorem State.outputs_faulted_iff (s : State) : s.outputs.faulted = true ↔ ∃ c fpc, s.status = .faulted c fpc := by
  cases h : s.status with
  | running => simp [State.outputs_of_running h]
  | halted => simp [State.outputs_of_halted h]
  | faulted => simp [State.outputs_of_faulted h]

/-- The code is 0 when status is not FAULTED (R200). -/
theorem State.faultCode_of_not_faulted {s : State} (hs : ∀ c fpc, s.status ≠ .faulted c fpc) :
    s.outputs.faultCode = 0#3 := by
  cases h : s.status with
  | running => rw [State.outputs_of_running h]
  | halted => rw [State.outputs_of_halted h]
  | faulted c fpc => exact absurd h (hs c fpc)

/-- Settles O49: the pulse is what the step appended to out, by O36, and the level outputs follow the status. -/
theorem stepInputAndOutputs : Obligations.StepInputAndOutputs := by
  refine ⟨fun p hrst hs => transact_step_of_not_running hrst hs, fun p t hrst h => ?_, fun s => ?_⟩
  · obtain ⟨happend, hkept⟩ := onlyPrnAppendsToOut p.core t h
    exact ⟨transact_step_of_next hrst h, fun j hj => outPulse_of_append (happend j hj),
      fun hne => outPulse_of_kept (hkept hne)⟩
  · exact ⟨s.outputs_halted_iff, s.outputs_faulted_iff, fun c fpc h => by rw [State.outputs_of_faulted h],
      State.faultCode_of_not_faulted, fun _ _ => State.faultCode_of_faulted, fun _ _ => State.faultCode_of_faulted,
      fun _ _ => State.faultCode_of_faulted, fun _ _ => State.faultCode_of_faulted, fun _ _ => State.faultCode_of_faulted⟩

/-! The run that never ends -/

/-- A run from a state that steps to itself stays there. -/
theorem runFor_of_step_self {s : State} (h : step s = .next s) (k : Nat) : runFor k s = s := by
  induction k with
  | zero => rfl
  | succ k ih => simpa only [runFor, h] using ih

/-- Settles O54: the jump writes to pc the value it has. -/
theorem jmpToItselfHangs : Obligations.JmpToItselfHangs := by
  intro i s hs hm hf hpc
  have hself : step s = .next s := by
    rw [step_fetch_ok hs hm hf, exec_jmp_regByte, State.jumpTo, hpc]
    rfl
  refine ⟨hself, fun k => ?_⟩
  rw [runFor_of_step_self hself k]
  exact ⟨rfl, fun hended => hended hs⟩

end Sys2Proof.Machine
end
